-- ==== Sys2Proof/Word.lean ====
section
/-! DEFINITION. The plain value types of the decoder: bytes, coordinates, the command word, the sixteen lanes (00_scope.md R10, R12). -/

namespace Sys2Proof

/-- `u8`: a byte of a block or of `IMG`, a colour channel, an alpha value (R10). -/
abbrev Byte := BitVec 8

/-- A command's `X`, `Y` or `W`: 16 bits, unsigned (R9 `CW = 16`, R80). -/
abbrev Coord := BitVec 16

/-- A packed 5-6-5 reference colour, `u16` (R77). -/
abbrev Packed565 := BitVec 16

/-- The one command format `CMDW`: 192 bits, bit 0 least significant (R70, R71). -/
abbrev CmdWord := BitVec 192

/-- A pixel number `p = 0 .. 15` of the block, row-major from the top-left (R12). -/
abbrev Lane := Fin 16

end Sys2Proof
end

