-- ==== Sys2Proof/Syntax.lean ====
section
/-! DEFINITION. The four commands as the unpacked record of the fields each one reads (30_encoding.md R71 to R73), and the assembler's
form of a command (R85, R86). -/

namespace Sys2Proof

/-- A decode command, one constructor per row of the opcode table. `x`, `y`, `w` are the fields `X`, `Y`, `W`; `blk` is the part of
`BLOCK` the command reads, byte `i` at bits `8*i+7 : 8*i` (R72): 8 bytes for format `C1`, 16 for `A4` and `A8`. The field widths are
in the types, so every term is a command the hardware has, and no bit that R83 ignores is part of it. -/
inductive Instr where
  /-- `DEC_RGB` (R141). -/
  | decRgb (x y w : Coord) (blk : BitVec 64)
  /-- `DEC_A1` (R142). -/
  | decA1 (x y w : Coord) (blk : BitVec 64)
  /-- `DEC_A4` (R151). -/
  | decA4 (x y w : Coord) (blk : BitVec 128)
  /-- `DEC_A8` (R161). -/
  | decA8 (x y w : Coord) (blk : BitVec 128)
  deriving DecidableEq, Repr

/-- An assembler line (R85) before its numbers and its byte list are checked: `X`, `Y`, `W` as written, the bracketed list in memory
order. `decC1` is the pseudo-command `dec.c1 TM, X, Y, W, [..]` (R86). -/
inductive AsmLine where
  | decRgb (x y w : Nat) (bytes : List Byte)
  | decA1 (x y w : Nat) (bytes : List Byte)
  | decA4 (x y w : Nat) (bytes : List Byte)
  | decA8 (x y w : Nat) (bytes : List Byte)
  | decC1 (tm : Bool) (x y w : Nat) (bytes : List Byte)
  deriving DecidableEq, Repr

end Sys2Proof
end

