-- ==== Sys2Proof/WellFormed.lean ====
section
/-! DEFINITION. Which assembler lines are well formed (30_encoding.md R85): numbers in `0 .. 65535`, and a block of the variant's exact
length (R72; 93_implementation_defined.md U2 refuses any other length).
A term of `Instr` needs no check: its types hold every width, and every block of the right length is valid (R113). -/

namespace Sys2Proof

/-- `X`, `Y` and `W` are "numbers in 0 .. 65535" (R85). -/
def coordsFit (x y w : Nat) : Bool :=
  decide (x ≤ 65535) && decide (y ≤ 65535) && decide (w ≤ 65535)


/-- The line's numbers fit and its byte list has the command's length. -/
def AsmLine.wellFormed : AsmLine → Bool
  | .decRgb x y w bs => coordsFit x y w && bs.length == 8
  | .decA1 x y w bs => coordsFit x y w && bs.length == 8
  | .decA4 x y w bs => coordsFit x y w && bs.length == 16
  | .decA8 x y w bs => coordsFit x y w && bs.length == 16
  | .decC1 _ x y w bs => coordsFit x y w && bs.length == 8

end Sys2Proof
end

