-- ==== Sys2Proof/Decode.lean ====
section
/-! DEFINITION. The command word: its fields, decoding (30_encoding.md R70 to R73, R82, R83), the encoder (R85's packing), the opcode
map as match and mask (R81), and the assembler (R85, R86). -/

namespace Sys2Proof

/-- Why a word or a byte string is no command. -/
inductive DecodeError where
  /-- Fewer than the 24 bytes of a command (R70). -/
  | truncated
  /-- `VAR = 3`, the reserved encoding (R82). -/
  | reservedVariant
  deriving DecidableEq, Repr

/-! ### The fields of the command word (R71) -/

def cmdBlock (w : CmdWord) : BitVec 128 := w.extractLsb' 0 128
def cmdX (w : CmdWord) : Coord := w.extractLsb' 128 16
def cmdY (w : CmdWord) : Coord := w.extractLsb' 144 16
def cmdW (w : CmdWord) : Coord := w.extractLsb' 160 16
def cmdVar (w : CmdWord) : BitVec 2 := w.extractLsb' 176 2
def cmdTm (w : CmdWord) : BitVec 1 := w.extractLsb' 178 1
def cmdRsv (w : CmdWord) : BitVec 13 := w.extractLsb' 179 13

/-- The low half of `BLOCK`, all of the block when `VAR = 0` (R72). -/
def cmdBlockLow (w : CmdWord) : BitVec 64 := (cmdBlock w).extractLsb' 0 64

/-- The command a word selects: by `VAR` and, for `VAR = 0` only, by `TM` (R73); `VAR = 3` selects none (R82). The ignored bits of R83
are not read. -/
def decodeWord (w : CmdWord) : Except DecodeError Instr :=
  if cmdVar w = 0 then
    if cmdTm w = 0 then .ok (.decRgb (cmdX w) (cmdY w) (cmdW w) (cmdBlockLow w))
    else .ok (.decA1 (cmdX w) (cmdY w) (cmdW w) (cmdBlockLow w))
  else if cmdVar w = 1 then .ok (.decA4 (cmdX w) (cmdY w) (cmdW w) (cmdBlock w))
  else if cmdVar w = 2 then .ok (.decA8 (cmdX w) (cmdY w) (cmdW w) (cmdBlock w))
  else .error .reservedVariant

/-! ### A command carried as bytes (R70) -/

/-- Bytes `0 .. n-1` of a bit vector, byte `k` being bits `8*k+7 : 8*k`, lowest `k` first. -/
def bytesLE {m : Nat} (n : Nat) (v : BitVec m) : List Byte :=
  (List.range n).map fun k => v.extractLsb' (8 * k) 8

/-- The number that bytes stand for, lowest first. -/
def natOfBytesLE : List Byte → Nat
  | [] => 0
  | b :: bs => b.toNat + 256 * natOfBytesLE bs

/-- The 24 bytes of a command word (R70). -/
def commandBytes (w : CmdWord) : List Byte := bytesLE 24 w

/-- Decode the command at the head of a byte string and return the bytes after it: every command takes 24 bytes (R70). -/
def decodeBytes (bs : List Byte) : Except DecodeError (Instr × List Byte) :=
  if bs.length < 24 then .error .truncated
  else
    match decodeWord (BitVec.ofNat 192 (natOfBytesLE (bs.take 24))) with
    | .ok i => .ok (i, bs.drop 24)
    | .error e => .error e

/-- The command the decoder reads from `nbits` bits of `w`, numbered as the opcode table numbers them; the bits above are 0. -/
def decodeTableWord (nbits w : Nat) : Option Instr :=
  match decodeBytes (commandBytes (BitVec.ofNat 192 (w % 2 ^ nbits))) with
  | .ok (i, _) => some i
  | .error _ => none

/-! ### Encoding -/

/-- Format `CMDW` from its fields, most significant first (R71). -/
def packWord (rsv : BitVec 13) (tm : BitVec 1) (var : BitVec 2) (w y x : Coord) (block : BitVec 128) : CmdWord :=
  rsv ++ tm ++ var ++ w ++ y ++ x ++ block

/-- The word of a command. `VAR` and `TM` come from the mnemonic; `RSV`, and `BLOCK[127:64]` for the 8-byte forms, are 0 (R85). -/
def encode : Instr → CmdWord
  | .decRgb x y w blk => packWord 0 0 0 w y x (blk.zeroExtend 128)
  | .decA1 x y w blk => packWord 0 1 0 w y x (blk.zeroExtend 128)
  | .decA4 x y w blk => packWord 0 0 1 w y x blk
  | .decA8 x y w blk => packWord 0 0 2 w y x blk

/-- The 24 bytes of a command. -/
def encodeBytes (i : Instr) : List Byte := commandBytes (encode i)

/-! ### The opcode map as match and mask (R81) -/

/-- A row of R81's table: a word selects it when `w &&& mask = pattern`. -/
structure OpcodeRow where
  mnemonic : String
  mask : CmdWord
  pattern : CmdWord
  deriving DecidableEq, Repr

def OpcodeRow.selects (r : OpcodeRow) (w : CmdWord) : Bool := w &&& r.mask == r.pattern

def rowDecRgb : OpcodeRow :=
  ⟨"DEC_RGB", 0x000700000000000000000000000000000000000000000000, 0x000000000000000000000000000000000000000000000000⟩
def rowDecA1 : OpcodeRow :=
  ⟨"DEC_A1", 0x000700000000000000000000000000000000000000000000, 0x000400000000000000000000000000000000000000000000⟩
def rowDecA4 : OpcodeRow :=
  ⟨"DEC_A4", 0x000300000000000000000000000000000000000000000000, 0x000100000000000000000000000000000000000000000000⟩
def rowDecA8 : OpcodeRow :=
  ⟨"DEC_A8", 0x000300000000000000000000000000000000000000000000, 0x000200000000000000000000000000000000000000000000⟩

/-- The four rows of R81. -/
def opcodeRows : List OpcodeRow := [rowDecRgb, rowDecA1, rowDecA4, rowDecA8]

/-- The row a command belongs to. -/
def rowOf : Instr → OpcodeRow
  | .decRgb .. => rowDecRgb
  | .decA1 .. => rowDecA1
  | .decA4 .. => rowDecA4
  | .decA8 .. => rowDecA8

/-! ### The assembler (R85, R86) -/

/-- The command of an assembler line, `none` where the line is not well formed. The pseudo-command `dec.c1` stands for `dec.rgb` or
`dec.a1` by its `TM` (R86). -/
def assemble (l : AsmLine) : Option Instr :=
  if l.wellFormed then
    match l with
    | .decRgb x y w bs => some (.decRgb (.ofNat 16 x) (.ofNat 16 y) (.ofNat 16 w) (.ofNat 64 (natOfBytesLE bs)))
    | .decA1 x y w bs => some (.decA1 (.ofNat 16 x) (.ofNat 16 y) (.ofNat 16 w) (.ofNat 64 (natOfBytesLE bs)))
    | .decA4 x y w bs => some (.decA4 (.ofNat 16 x) (.ofNat 16 y) (.ofNat 16 w) (.ofNat 128 (natOfBytesLE bs)))
    | .decA8 x y w bs => some (.decA8 (.ofNat 16 x) (.ofNat 16 y) (.ofNat 16 w) (.ofNat 128 (natOfBytesLE bs)))
    | .decC1 false x y w bs => some (.decRgb (.ofNat 16 x) (.ofNat 16 y) (.ofNat 16 w) (.ofNat 64 (natOfBytesLE bs)))
    | .decC1 true x y w bs => some (.decA1 (.ofNat 16 x) (.ofNat 16 y) (.ofNat 16 w) (.ofNat 64 (natOfBytesLE bs)))
  else none

/-- The word an assembler line assembles to. -/
def assembleWord (l : AsmLine) : Option CmdWord := (assemble l).map encode

/-- A hexadecimal digit as the listings print it. -/
def hexDigit (v : BitVec 4) : Char := Char.ofNat (if v.toNat < 10 then 48 + v.toNat else 55 + v.toNat)

/-- A listing shows a command word as 48 hexadecimal digits, most significant first (R85). -/
def listing (w : CmdWord) : List Char :=
  (List.range 48).map fun k => hexDigit (w.extractLsb' (4 * (47 - k)) 4)

end Sys2Proof
end

