-- ==== Sys2Proof/Config.lean ====
section
/-! DEFINITION. The constant tables and parameters of the decoder as a configuration (00_scope.md R9, 10_state.md R27): fields, not state.
The values this model takes are `Machine.config` in Machine/Parameters.lean; every datapath function takes the configuration as an argument. -/

namespace Sys2Proof

/-- A colour: the three channel bytes `(r, g, b)` of a palette entry or a pixel (R103, R104). -/
structure Rgb where
  r : Byte
  g : Byte
  b : Byte
  deriving DecidableEq, Repr

/-- What is fixed when the decoder is built (R9, R27). A table is a vector as long as its index type allows, so no lookup can
leave it (R100). -/
structure Config where
  /-- `EXPAND5`: 5-bit channel to 8 bits (R100, R101, decision D5). -/
  expand5 : Vector Byte 32
  /-- `EXPAND6`: 6-bit channel to 8 bits (R100, R102, decision D5). -/
  expand6 : Vector Byte 64
  /-- `COLOR_OFF`: bit offset of each pixel's colour index (R110). -/
  colorOff : Vector Nat 16
  /-- `ALPHA_OFF`: bit offset of each pixel's alpha index (R79, R111, decision D6). -/
  alphaOff : Vector Nat 16
  /-- `SLOT3_RGBA_RGB`: the colour bytes of a special-slot pixel in the 4-byte layout (R124, decision D7). -/
  slot3 : Rgb
  deriving DecidableEq, Repr

end Sys2Proof
end

