-- ==== Sys2Proof/Machine/Operands.lean ====
section
/-! DEFINITION. Operand forms: the bytes and little-endian fields of a block (00_scope.md R11, 20_memory.md R41), the three block formats
(30_encoding.md R74 to R79), and the bit_field_index_extractor (40_datapath.md R109 to R113). -/

namespace Sys2Proof.Machine

/-- `blk[i]`, byte `i` of a block (R72). -/
def blkByte {n : Nat} (blk : BitVec n) (i : Nat) : Byte := blk.extractLsb' (8 * i) 8

/-- `le16(blk, i)` (R11). -/
def le16 {n : Nat} (blk : BitVec n) (i : Nat) : BitVec 16 := blkByte blk (i + 1) ++ blkByte blk i

/-- `le32(blk, i)` (R11). -/
def le32 {n : Nat} (blk : BitVec n) (i : Nat) : BitVec 32 := le16 blk (i + 2) ++ le16 blk i

/-- `le48(blk, i)` (R11). -/
def le48 {n : Nat} (blk : BitVec n) (i : Nat) : BitVec 48 := le16 blk (i + 4) ++ le32 blk i

/-- `le64(blk, i)` (R11). -/
def le64 {n : Nat} (blk : BitVec n) (i : Nat) : BitVec 64 := le32 blk (i + 4) ++ le32 blk i

/-- `extract(field, off, n)`: the `k`-bit unsigned value at bit offset `off` of an assembled field (R109). -/
def extract {n : Nat} (field : BitVec n) (off k : Nat) : BitVec k := field.extractLsb' off k

/-! ### Format C1 (R74) -/

/-- `c0`, reference 0. -/
def ref0 (cb : BitVec 64) : Packed565 := le16 cb 0

/-- `c1`, reference 1. -/
def ref1 (cb : BitVec 64) : Packed565 := le16 cb 2

/-- `cbits`, the ColorIndexGrid. -/
def colourGrid (cb : BitVec 64) : BitVec 32 := le32 cb 4

/-- The colour block of an `A4` or `A8` block: its bytes 8 to 15 (R74: `cb[i] = blk[8+i]`). -/
def colourBlock (blk : BitVec 128) : BitVec 64 := blk.extractLsb' 64 64

/-- `cidx(p)`, the colour index of pixel `p`, the same map for all four commands (R77, R110). -/
def colourIndex (cfg : Config) (cb : BitVec 64) (p : Lane) : BitVec 2 := extract (colourGrid cb) cfg.colorOff[p] 2

/-! ### Format A4 (R75) -/

/-- `aw[r]`, the alpha word of image row `r` (R75, decision D19). -/
def alphaWord (blk : BitVec 128) (r : Nat) : BitVec 16 := le16 blk (2 * r)

/-- `row(p)` (R12). -/
def row (p : Lane) : Nat := p.val / 4

/-- `col(p)` (R12). -/
def col (p : Lane) : Nat := p.val % 4

/-- `nib(p) = (aw[row(p)] >> (4*col(p))) & 0xF` (R78, R112). -/
def nibble (blk : BitVec 128) (p : Lane) : BitVec 4 := extract (alphaWord blk (row p)) (4 * col p) 4

/-! ### Format A8 (R76) -/

/-- `a0`, alpha endpoint 0. -/
def alpha0 (blk : BitVec 128) : Byte := blkByte blk 0

/-- `a1`, alpha endpoint 1. -/
def alpha1 (blk : BitVec 128) : Byte := blkByte blk 1

/-- `abits`, the AlphaIndexGrid. -/
def alphaGrid (blk : BitVec 128) : BitVec 48 := le48 blk 2

/-- `aidx(p)`, the alpha index of pixel `p` (R79, R111). -/
def alphaIndex (cfg : Config) (blk : BitVec 128) (p : Lane) : BitVec 3 := extract (alphaGrid blk) cfg.alphaOff[p] 3

/-! ### PackedColor565 (R77) -/

def red5 (c : Packed565) : BitVec 5 := extract c 11 5
def green6 (c : Packed565) : BitVec 6 := extract c 5 6
def blue5 (c : Packed565) : BitVec 5 := extract c 0 5

end Sys2Proof.Machine
end

