-- ==== Sys2Proof/Machine/Palette.lean ====
section
/-! DEFINITION. The endpoint_color_expander and the palette_interpolator (40_datapath.md R100 to R108). -/

namespace Sys2Proof.Machine

/-- `EXPAND5[i]` (R100). -/
def expand5 (cfg : Config) (i : BitVec 5) : Byte := cfg.expand5[i.toNat]'i.isLt

/-- `EXPAND6[i]` (R100). -/
def expand6 (cfg : Config) (i : BitVec 6) : Byte := cfg.expand6[i.toNat]'i.isLt

/-- `expand565(c)`: each channel through its table (R103). -/
def expand565 (cfg : Config) (c : Packed565) : Rgb := ⟨expand5 cfg (red5 c), expand6 cfg (green6 c), expand5 cfg (blue5 c)⟩

/-- `(wa*a + wb*b) / d` with floor division, computed exactly and then stored in 8 bits (R106, R107, R116 to R118). -/
def weighted (wa wb d : Nat) (a b : Byte) : Byte := BitVec.ofNat 8 ((wa * a.toNat + wb * b.toNat) / d)

/-- A ramp step for each channel separately (R106, R107). -/
def weightedRgb (wa wb d : Nat) (a b : Rgb) : Rgb := ⟨weighted wa wb d a.r b.r, weighted wa wb d a.g b.g, weighted wa wb d a.b b.b⟩

/-- `P[0 .. 3]` (R104). `p3 = none` is the special slot, "no value" (R107). -/
structure Palette where
  p0 : Rgb
  p1 : Rgb
  p2 : Rgb
  p3 : Option Rgb
  deriving DecidableEq, Repr

/-- The boolean `special` that `palette4` returns (R104): true exactly where slot 3 has no value. -/
def Palette.special (P : Palette) : Bool := P.p3.isNone

/-- `P[i]`, `none` for the special slot. -/
def Palette.pick (P : Palette) (i : BitVec 2) : Option Rgb :=
  if i = 0 then some P.p0 else if i = 1 then some P.p1 else if i = 2 then some P.p2 else P.p3

/-- The choice of the 4-colour branch: `force4 | (c0 > c1)`, the two raw values compared as unsigned integers (R105). -/
def fourColours (c0 c1 : Packed565) (force4 : Bool) : Bool := force4 || decide (c0.toNat > c1.toNat)

/-- `palette4(c0, c1, force4)` (R104 to R108). -/
def palette4 (cfg : Config) (c0 c1 : Packed565) (force4 : Bool) : Palette :=
  let e0 := expand565 cfg c0
  let e1 := expand565 cfg c1
  if fourColours c0 c1 force4 then ⟨e0, e1, weightedRgb 2 1 3 e0 e1, some (weightedRgb 1 2 3 e0 e1)⟩
  else ⟨e0, e1, weightedRgb 1 1 2 e0 e1, none⟩

end Sys2Proof.Machine
end

