-- ==== Sys2Proof/Machine/Alpha.lean ====
section
/-! DEFINITION. Alpha reconstruction: the explicit alpha grid and the alpha table (40_datapath.md R114 to R117, 42_explicit_alpha_decoder.md
R150). -/

namespace Sys2Proof.Machine

/-- The all-255 alpha array that `DEC_RGB` and `DEC_A1` supply (R140). -/
def opaqueAlpha (_ : Lane) : Byte := 255

/-- `explicit_alpha(blk)`: `A[p] = nib(p) * 17` (R114, R150). -/
def explicitAlpha (blk : BitVec 128) (p : Lane) : Byte := BitVec.ofNat 8 ((nibble blk p).toNat * 17)

/-- `alpha_table(a0, a1)`: `T[0 .. 7]`, the 8-level ramp when `a0 > a1` (R116), else four interpolations and the two fixed slots (R117);
positions as R115. -/
def alphaTable (a0 a1 : Byte) : Vector Byte 8 :=
  if a0.toNat > a1.toNat then
    #v[a0, a1, weighted 6 1 7 a0 a1, weighted 5 2 7 a0 a1, weighted 4 3 7 a0 a1, weighted 3 4 7 a0 a1, weighted 2 5 7 a0 a1,
       weighted 1 6 7 a0 a1]
  else
    #v[a0, a1, weighted 4 1 5 a0 a1, weighted 3 2 5 a0 a1, weighted 2 3 5 a0 a1, weighted 1 4 5 a0 a1, 0, 255]

/-- `T[j]` for an alpha index `j`. -/
def alphaEntry (T : Vector Byte 8) (j : BitVec 3) : Byte := T[j.toNat]'j.isLt

end Sys2Proof.Machine
end

