-- ==== Sys2Proof/Machine/Parameters.lean ====
section
/-! DEFINITION. The values of the constant tables and parameters this decoder is built with (00_scope.md R9): the spec's decisions D5, D6,
D7 and the source's colour offsets. -/

namespace Sys2Proof.Machine

/-- R101, decision D5. -/
def expand5Table : Vector Byte 32 := #v[
    0,   8,  16,  25,  33,  41,  49,  58,
   66,  74,  82,  90,  99, 107, 115, 123,
  132, 140, 148, 156, 165, 173, 181, 189,
  197, 206, 214, 222, 230, 239, 247, 255]

/-- R102, decision D5. -/
def expand6Table : Vector Byte 64 := #v[
    0,   4,   8,  12,  16,  20,  24,  28,
   32,  36,  40,  45,  49,  53,  57,  61,
   65,  69,  73,  77,  81,  85,  89,  93,
   97, 101, 105, 109, 113, 117, 121, 125,
  130, 134, 138, 142, 146, 150, 154, 158,
  162, 166, 170, 174, 178, 182, 186, 190,
  194, 198, 202, 206, 210, 215, 219, 223,
  227, 231, 235, 239, 243, 247, 251, 255]

/-- R110: `COLOR_OFF[p] = 2*p`. -/
def colorOffTable : Vector Nat 16 :=
  #v[0, 2, 4, 6, 8, 10, 12, 14, 16, 18, 20, 22, 24, 26, 28, 30]

/-- R79, R111, decision D6: `ALPHA_OFF[p] = 3*p`. -/
def alphaOffTable : Vector Nat 16 :=
  #v[0, 3, 6, 9, 12, 15, 18, 21, 24, 27, 30, 33, 36, 39, 42, 45]

/-- R124, decision D7: `SLOT3_RGBA_RGB = (0, 0, 0)`. -/
def slot3Default : Rgb := ⟨0, 0, 0⟩

/-- The configuration the four commands run with. -/
def config : Config := ⟨expand5Table, expand6Table, colorOffTable, alphaOffTable, slot3Default⟩

end Sys2Proof.Machine
end

