-- ==== Sys2Proof/Machine/Flags.lean ====
section
/-! DEFINITION. The register `FLAGS` and its accumulation (10_state.md R23, 40_datapath.md R125). -/

namespace Sys2Proof.Machine

/-- The sixteen lanes in ascending order (R52, R122). -/
def lanes : List Lane := [0, 1, 2, 3, 4, 5, 6, 7, 8, 9, 10, 11, 12, 13, 14, 15]

/-- `FLAGS.FT`, bit 0: a decoded pixel had effective alpha exactly 0 (R23). -/
def flagFT (f : BitVec 2) : Bool := f.getLsbD 0

/-- `FLAGS.PT`, bit 1: a decoded pixel had effective alpha strictly between 0 and 255 (R23). -/
def flagPT (f : BitVec 2) : Bool := f.getLsbD 1

/-- `ft_blk`: some pixel's effective alpha is 0 (R125). -/
def ftBlk (ea : Lane → Byte) : Bool := lanes.any fun p => decide ((ea p).toNat = 0)

/-- `pt_blk`: some pixel's effective alpha lies strictly between 0 and 255 (R125). -/
def ptBlk (ea : Lane → Byte) : Bool := lanes.any fun p => decide (0 < (ea p).toNat ∧ (ea p).toNat < 255)

/-- The value `{PT, FT}` (R23). -/
def flagsOf (ft pt : Bool) : BitVec 2 := BitVec.ofBool pt ++ BitVec.ofBool ft

/-- `FLAGS.FT <- FLAGS.FT | ft_blk` and `FLAGS.PT <- FLAGS.PT | pt_blk` (R23). -/
def accumulateFlags (f : BitVec 2) (ea : Lane → Byte) : BitVec 2 := f ||| flagsOf (ftBlk ea) (ptBlk ea)

end Sys2Proof.Machine
end

