-- ==== Sys2Proof/Machine/State.lean ====
section
/-! DEFINITION. The machine's state as plain data: `IMG`, `FLAGS`, the size parameter `IMG_BYTES`, and the host's side of a run: its list
of commands and actions, the index into it, and what it got back (10_state.md, 70_reset_and_hazards.md section 6). -/

namespace Sys2Proof.Machine

/-- `RSP.STATUS` (30_encoding.md R84). The code 3 is never returned, so it has no constructor. -/
inductive Status where
  /-- 0: the 16 pixels were written and `FLAGS` was updated. -/
  | ok
  /-- 1: `VAR = 3`; nothing written. -/
  | illegalCommand
  /-- 2: the footprint does not lie inside `W` columns or inside `IMG_BYTES`; nothing written. -/
  | footprintOutOfBounds
  deriving DecidableEq, Repr

/-- The two synchronous exceptions of the hardware; there are no others (60_exceptions.md R170). -/
inductive Exc where
  | illegalCommand
  | footprintOutOfBounds
  deriving DecidableEq, Repr

/-- What the host may do to one decoder instance between two commands, and the issuing of a command (70_reset_and_hazards.md section 6,
30_encoding.md R86). -/
inductive HostAction where
  /-- Issue one command word. -/
  | command (w : CmdWord)
  /-- `host.wrflags v`. -/
  | wrflags (v : BitVec 2)
  /-- `host.rdflags`. -/
  | rdflags
  /-- `host.read addr, n`. -/
  | read (addr n : Nat)
  /-- `host.fill addr, n, byte`. -/
  | fill (addr n : Nat) (byte : Byte)
  /-- A host write of data to an address range. -/
  | write (addr : Nat) (bytes : List Byte)
  /-- The reset event (R200), applied between commands. -/
  | reset
  deriving DecidableEq, Repr

/-- What a host action gives back (70_reset_and_hazards.md section 6). -/
inductive HostReply where
  /-- `host.rdflags`: the 2-bit `FLAGS`. -/
  | flags (v : BitVec 2)
  /-- `host.read`: `n` bytes; `none` for a byte that has no defined value (U6). -/
  | bytes (bs : List (Option Byte))
  deriving DecidableEq, Repr

/-- `IMG` as (address, byte) pairs, addresses strictly rising; an unlisted address has no value (R29: "a model gives each byte no
value"). -/
abbrev Memory := List Host.Cell

/-- The state of one decoder instance and of the host's side of its run. The datapath keeps nothing between commands (R22). -/
structure State where
  /-- `IMG`, the output image memory (R25, R40). -/
  img : Memory
  /-- `FLAGS`: `FT` is bit 0, `PT` is bit 1 (R23). -/
  flags : BitVec 2
  /-- `IMG_BYTES`: a parameter (R9, R49), constant in a run (R207). -/
  imgBytes : Nat
  /-- The host's finite list of commands and actions (R21, R203). -/
  program : List HostAction
  /-- The index of the action being performed (R21). -/
  pc : Nat
  /-- The responses returned so far, part of the result of a run (R203). No command reads them (R28). -/
  responses : List Status
  /-- What `host.rdflags` and `host.read` have given back so far. No command reads them. -/
  replies : List HostReply
  deriving DecidableEq, Repr

/-- Why a step stops with a fault. No decode command faults: its exceptions are responses (R172, R175). -/
inductive Fault where
  /-- Raised by `host.read`, `host.fill` and a host write whose range is not inside `IMG`: an address at or above `IMG_BYTES` does not
  exist (R40, R49) and the spec gives the action no effect there. Safe: the model stops. -/
  | hostRangeOutsideImg
  /-- Raised by `Cluster.launch` alone: actions in flight together touch a common byte, at least one of them a command (R55, R56, U4,
  U5). Safe: the model stops and picks no winner. -/
  | dataRace
  /-- Raised by `Cluster.stepInstance` alone: there is no instance of that number (R181). Safe. -/
  | noSuchInstance
  deriving DecidableEq, Repr

/-- Why a step gives no meaning. -/
inductive Refusal where
  /-- An instruction whose arm of `exec` has no meaning yet, by its mnemonic. Safe. No arm answers so now. -/
  | notModelled (mnemonic : String)
  /-- Raised by `Cluster.launch` alone: a second action for an instance before its first has responded; "the spec makes no statement"
  (70_reset_and_hazards.md section 6; U8 refuses). Safe. -/
  | secondActionInFlight
  deriving DecidableEq, Repr

/-- `IMG_BYTES` of the reset state. DESIGN CHOICE (log entry 2): the spec leaves the number open; 2^35 is above every address the formula
of R45 can give. Statements about all states hold for every other value. -/
def resetImgBytes : Nat := 34359738368

/-- The machine right after reset (R29, R201): `FLAGS = 0b00`, no byte of `IMG` has a value, no command in flight, no response pending,
nothing issued yet. -/
def State.reset : State where
  img := []
  flags := 0#2
  imgBytes := resetImgBytes
  program := []
  pc := 0
  responses := []
  replies := []

end Sys2Proof.Machine
end

