-- ==== Sys2Proof/Machine/Ops.lean ====
section
/-! DEFINITION. The named operations: reading and writing bytes of `IMG`, the pixel address and the footprint check, answering a command,
and raising an exception (20_memory.md R43 to R45, 60_exceptions.md R170 to R172). -/

namespace Sys2Proof.Machine

/-! ### Bytes of `IMG` -/

/-- The form every `IMG` has: addresses strictly rising. An unlisted address has no value, so no entry can repeat that. -/
def Memory.wf : Memory → Bool
  | [] => true
  | [_] => true
  | (a, _) :: (b, v) :: m => decide (a < b) && Memory.wf ((b, v) :: m)

/-- The byte at an address, `none` where nothing has written it: it has no defined value (R29, U6). -/
def readByte : Memory → Nat → Option Byte
  | [], _ => none
  | (b, u) :: m, a => if b = a then some u else readByte m a

/-- `IMG[a] <- v`. -/
def writeByte : Memory → Nat → Byte → Memory
  | [], a, v => [(a, v)]
  | (b, u) :: m, a, v => if a < b then (a, v) :: (b, u) :: m else if a = b then (a, v) :: m else (b, u) :: writeByte m a v

/-- Bytes to consecutive addresses, in ascending order. -/
def writeBytes : Memory → Nat → List Byte → Memory
  | m, _, [] => m
  | m, a, v :: vs => writeBytes (writeByte m a v) (a + 1) vs

/-- `MemRead(addr, n)`, a host action only (R13, R43). -/
def memRead (m : Memory) (addr n : Nat) : List (Option Byte) := (List.range n).map fun k => readByte m (addr + k)

/-- `MemWrite(addr, n, v)`: `IMG[addr + k] <- v[8*k+7 : 8*k]` for `k = 0 .. n-1` (R44). -/
def memWrite (m : Memory) (addr n : Nat) (v : BitVec 32) : Memory :=
  writeBytes m addr ((List.range n).map fun k => v.extractLsb' (8 * k) 8)

/-! ### The footprint -/

/-- `addr(p) = ((Y + row(p)) * W + (X + col(p))) * BPP`, exact in the natural numbers (R45, R80). -/
def pixelAddr (x y w : Coord) (bpp : Nat) (p : Lane) : Nat :=
  ((y.toNat + row p) * w.toNat + (x.toNat + col p)) * bpp

/-- `check_footprint(X, Y, W, BPP)` passes: neither of its two tests holds (R171). -/
def footprintOk (imgBytes : Nat) (x y w : Coord) (bpp : Nat) : Bool :=
  !decide (x.toNat + 4 > w.toNat) && !decide (((y.toNat + 3) * w.toNat + (x.toNat + 3)) * bpp + bpp > imgBytes)

/-! ### Updates of the state -/

def State.setImg (s : State) (m : Memory) : State := { s with img := m }

def State.setFlags (s : State) (f : BitVec 2) : State := { s with flags := f }

/-- The next action of the host's list: `pc` becomes `pc + 1` (R21). -/
def State.advance (s : State) : State := { s with pc := s.pc + 1 }

/-- Return the response of the command being performed: `pc` becomes `pc + 1`, whatever the status (R21, R84). -/
def State.respond (s : State) (st : Status) : State := { s with pc := s.pc + 1, responses := s.responses ++ [st] }

/-- Give a value back to the host and take its next action. -/
def State.reply (s : State) (r : HostReply) : State := { s with pc := s.pc + 1, replies := s.replies ++ [r] }

/-! ### Exceptions -/

/-- The 2-bit `RSP.STATUS` code (R84, R170). -/
def statusCode : Status → BitVec 2
  | .ok => 0
  | .illegalCommand => 1
  | .footprintOutOfBounds => 2

/-- The response that reports an exception (R170). -/
def excStatus : Exc → Status
  | .illegalCommand => .illegalCommand
  | .footprintOutOfBounds => .footprintOutOfBounds

/-- `raise E`: the command ends at once, no byte of `IMG` is written, `FLAGS` keeps its value, the response carries the code of `E`, and
the decoder is ready for the next command (R172, R175). There is no handler, no saved state and nothing to return from (R175, R176). -/
def State.raise (s : State) (e : Exc) : State := s.respond (excStatus e)

end Sys2Proof.Machine
end

