-- ==== Sys2Proof/Machine/Writer.lean ====
section
/-! DEFINITION. The pixel_layout_writer (40_datapath.md R119 to R122) and the shape all four commands share: check the footprint, write the
sixteen pixels, accumulate the flags, respond (20_memory.md R47 to R52). -/

namespace Sys2Proof.Machine

/-- The two layouts (R119). -/
inductive Layout where
  | rgb
  | rgba
  deriving DecidableEq, Repr

/-- `BPP` of a layout (R119). -/
def bpp : Layout → Nat
  | .rgb => 3
  | .rgba => 4

/-- What a lane decodes to: its colour and its effective alpha `ea(p)` (R125). -/
structure Pixel where
  colour : Rgb
  alpha : Byte
  deriving DecidableEq, Repr

/-- `R | (G << 8) | (B << 16) | (A << 24)` (R42, R120, R121). The 3-byte layout writes its low three bytes only. -/
def pixelValue (px : Pixel) : BitVec 32 := px.alpha ++ px.colour.b ++ px.colour.g ++ px.colour.r

/-- `write_rgb(p, ..)` or `write_rgba(p, ..)` by the layout (R120, R121). -/
def writePixel (l : Layout) (x y w : Coord) (px : Lane → Pixel) (m : Memory) (p : Lane) : Memory :=
  memWrite m (pixelAddr x y w (bpp l) p) (bpp l) (pixelValue (px p))

/-- The sixteen pixel writes, in ascending `p` (R52, R122). -/
def writeBlock (l : Layout) (x y w : Coord) (px : Lane → Pixel) (m : Memory) : Memory := lanes.foldl (writePixel l x y w px) m

/-- What a command that passes the footprint check leaves: the pixels written, the block flags ORed in, `RSP.STATUS = OK`, all in one
step (R51). -/
def State.completeBlock (s : State) (l : Layout) (x y w : Coord) (px : Lane → Pixel) : State :=
  ((s.setImg (writeBlock l x y w px s.img)).setFlags (accumulateFlags s.flags fun p => (px p).alpha)).respond .ok

/-- A decode command whose lanes decode to `px`: `check_footprint` before the first write (R171), then the block. -/
def decodeBlock (l : Layout) (x y w : Coord) (px : Lane → Pixel) (s : State) : State :=
  if footprintOk s.imgBytes x y w (bpp l) then s.completeBlock l x y w px else s.raise .footprintOutOfBounds

end Sys2Proof.Machine
end

