-- ==== Sys2Proof/Machine/ColourBlock.lean ====
section
/-! DEFINITION. The shared colour core and the commands `DEC_RGB` and `DEC_A1` (41_colour_block_decoders.md R140 to R142). -/

namespace Sys2Proof.Machine

/-- The colour the RGB layout shows at the special slot (R123). -/
def black : Rgb := ⟨0, 0, 0⟩

/-- `c1core(cb, alpha, layout, subst)`: what each lane decodes to (R140). Where slot 3 has no value and the lane's index is 3, the lane is
the special slot (R123, R124). -/
def c1core (cfg : Config) (cb : BitVec 64) (alpha : Lane → Byte) (l : Layout) (subst : Bool) (p : Lane) : Pixel :=
  match l, (palette4 cfg (ref0 cb) (ref1 cb) false).pick (colourIndex cfg cb p) with
  | .rgb, some c => ⟨c, 255⟩
  | .rgb, none => ⟨black, 255⟩
  | .rgba, some c => ⟨c, alpha p⟩
  | .rgba, none => ⟨cfg.slot3, if subst then 0 else alpha p⟩

/-- The lanes of `DEC_RGB` (R141). -/
def lanesRgb (cfg : Config) (blk : BitVec 64) : Lane → Pixel := c1core cfg blk opaqueAlpha .rgb false

/-- The lanes of `DEC_A1` (R142). -/
def lanesA1 (cfg : Config) (blk : BitVec 64) : Lane → Pixel := c1core cfg blk opaqueAlpha .rgba true

/-- `DEC_RGB` (R141). -/
def execDecRgb (x y w : Coord) (blk : BitVec 64) (s : State) : Host.Outcome State Fault Refusal :=
  .next (decodeBlock .rgb x y w (lanesRgb config blk) s)

/-- `DEC_A1` (R142). -/
def execDecA1 (x y w : Coord) (blk : BitVec 64) (s : State) : Host.Outcome State Fault Refusal :=
  .next (decodeBlock .rgba x y w (lanesA1 config blk) s)

end Sys2Proof.Machine
end

