-- ==== Sys2Proof/Machine/AlphaRamp.lean ====
section
/-! DEFINITION. The command `DEC_A8` (43_alpha_ramp_decoder.md R160, R161). -/

namespace Sys2Proof.Machine

/-- The lanes of `DEC_A8`: the palette forced to four colours and the alpha table (R160, R161). A forced palette has a value in every slot
(R108), so the special-slot colour of the last line is never taken. -/
def lanesA8 (cfg : Config) (blk : BitVec 128) (p : Lane) : Pixel :=
  let cb := colourBlock blk
  let P := palette4 cfg (ref0 cb) (ref1 cb) true
  let T := alphaTable (alpha0 blk) (alpha1 blk)
  ⟨(P.pick (colourIndex cfg cb p)).getD cfg.slot3, alphaEntry T (alphaIndex cfg blk p)⟩

/-- `DEC_A8` (R161). -/
def execDecA8 (x y w : Coord) (blk : BitVec 128) (s : State) : Host.Outcome State Fault Refusal :=
  .next (decodeBlock .rgba x y w (lanesA8 config blk) s)

end Sys2Proof.Machine
end

