-- ==== Sys2Proof/Machine/ExplicitAlpha.lean ====
section
/-! DEFINITION. The command `DEC_A4` (42_explicit_alpha_decoder.md R150, R151). -/

namespace Sys2Proof.Machine

/-- The lanes of `DEC_A4`: the colour core over bytes 8 to 15 with the explicit alpha grid, no substitution at the special slot (R151). -/
def lanesA4 (cfg : Config) (blk : BitVec 128) : Lane → Pixel :=
  c1core cfg (colourBlock blk) (explicitAlpha blk) .rgba false

/-- `DEC_A4` (R151). -/
def execDecA4 (x y w : Coord) (blk : BitVec 128) (s : State) : Host.Outcome State Fault Refusal :=
  .next (decodeBlock .rgba x y w (lanesA4 config blk) s)

end Sys2Proof.Machine
end

