-- ==== Sys2Proof/Machine/Dispatch.lean ====
section
/-! DEFINITION. One arm per command: the meaning it runs (30_encoding.md R73). -/

namespace Sys2Proof.Machine

def exec (i : Instr) (s : State) : Host.Outcome State Fault Refusal :=
  match i with
  | .decRgb x y w blk => Sys2Proof.Machine.execDecRgb x y w blk s
  | .decA1 x y w blk => Sys2Proof.Machine.execDecA1 x y w blk s
  | .decA4 x y w blk => Sys2Proof.Machine.execDecA4 x y w blk s
  | .decA8 x y w blk => Sys2Proof.Machine.execDecA8 x y w blk s

end Sys2Proof.Machine
end

