-- ==== Sys2Proof/Machine/Command.lean ====
section
/-! DEFINITION. Performing one command word, and the host's own actions (60_exceptions.md R174, 70_reset_and_hazards.md section 6). -/

namespace Sys2Proof.Machine

/-- A command word is examined for `VAR` first (R174): `VAR = 3` raises `IllegalCommand` and nothing else of the word is looked at (R82);
any other word is the command it decodes to. -/
def performCommand (w : CmdWord) (s : State) : Host.Outcome State Fault Refusal :=
  match decodeWord w with
  | .ok i => exec i s
  | .error _ => .next (s.raise .illegalCommand)

/-- A host action's address range lies inside `IMG` (70_reset_and_hazards.md section 6). -/
def rangeInside (imgBytes addr n : Nat) : Bool := decide (addr + n ≤ imgBytes)

/-- `host.read addr, n`. -/
def hostRead (addr n : Nat) (s : State) : Host.Outcome State Fault Refusal :=
  if rangeInside s.imgBytes addr n then .next (s.reply (.bytes (memRead s.img addr n))) else .fault .hostRangeOutsideImg

/-- A host write of bytes to consecutive addresses. -/
def hostWrite (addr : Nat) (bytes : List Byte) (s : State) : Host.Outcome State Fault Refusal :=
  if rangeInside s.imgBytes addr bytes.length then .next ((s.setImg (writeBytes s.img addr bytes)).advance)
  else .fault .hostRangeOutsideImg

/-- The reset event (R200, R201): `FLAGS = 0b00`; `IMG` is not touched; nothing is in flight. -/
def hostReset (s : State) : Host.Outcome State Fault Refusal := .next ((s.setFlags 0).advance)

/-- Each action of the host (70_reset_and_hazards.md section 6, R24, R86). -/
def performAction (a : HostAction) (s : State) : Host.Outcome State Fault Refusal :=
  match a with
  | .command w => performCommand w s
  | .wrflags v => .next ((s.setFlags v).advance)
  | .rdflags => .next (s.reply (.flags s.flags))
  | .read addr n => hostRead addr n s
  | .fill addr n byte => hostWrite addr (List.replicate n byte) s
  | .write addr bytes => hostWrite addr bytes s
  | .reset => hostReset s

/-- The action the host's list holds at `pc`, none when the run has ended (R21, R203). -/
def nextAction (s : State) : Option HostAction := s.program[s.pc]?

/-- Put a command word at the host's list where the next step takes its action; a list too short is filled up to there. -/
def placeCommand (w : CmdWord) (s : State) : State :=
  { s with program := (s.program ++ List.replicate (s.pc + 1 - s.program.length) (HostAction.command w)).set s.pc (HostAction.command w) }

end Sys2Proof.Machine
end

