-- ==== Sys2Proof/Machine/Step.lean ====
section
/-! DEFINITION. One step: the next action of the host's list is performed whole (10_state.md R21, 20_memory.md R50, R51). -/

namespace Sys2Proof.Machine

/-- Perform the action at `pc`. Where the list has ended the run is over and the decoder is idle: nothing changes (R203, R182). -/
def step (s : State) : Host.Outcome State Fault Refusal :=
  match nextAction s with
  | some a => performAction a s
  | none => .next s

/-- The state with a command word, given as the opcode table numbers its bits, as the action the next step performs. -/
def State.withFetchWord (s : State) (nbits w : Nat) : State := placeCommand (BitVec.ofNat 192 (w % 2 ^ nbits)) s

end Sys2Proof.Machine
end

