-- ==== Sys2Proof/Machine/Footprint.lean ====
section
/-! DEFINITION. What part of `IMG` a command stores to (20_memory.md R45, R47; 00_scope.md glossary "footprint"). -/

namespace Sys2Proof.Machine

/-- The byte addresses of the sixteen pixels of a footprint (R45, R47). -/
def footprintAddrs (l : Layout) (x y w : Coord) : List Nat :=
  lanes.flatMap fun p => (List.range (bpp l)).map fun k => pixelAddr x y w (bpp l) p + k

/-- The layout a command writes (R73, R119). -/
def layoutOf : Instr → Layout
  | .decRgb .. => .rgb
  | .decA1 .. => .rgba
  | .decA4 .. => .rgba
  | .decA8 .. => .rgba

/-- `X` of a command. -/
def xOf : Instr → Coord
  | .decRgb x _ _ _ => x
  | .decA1 x _ _ _ => x
  | .decA4 x _ _ _ => x
  | .decA8 x _ _ _ => x

/-- `Y` of a command. -/
def yOf : Instr → Coord
  | .decRgb _ y _ _ => y
  | .decA1 _ y _ _ => y
  | .decA4 _ y _ _ => y
  | .decA8 _ y _ _ => y

/-- `W` of a command. -/
def wOf : Instr → Coord
  | .decRgb _ _ w _ => w
  | .decA1 _ _ w _ => w
  | .decA4 _ _ w _ => w
  | .decA8 _ _ w _ => w

/-- The command's footprint check passes in an `IMG` of this size (R171). -/
def commandFits (imgBytes : Nat) (i : Instr) : Bool := footprintOk imgBytes (xOf i) (yOf i) (wOf i) (bpp (layoutOf i))

/-- The addresses a command stores to when it completes. -/
def storedAddrs (i : Instr) : List Nat := footprintAddrs (layoutOf i) (xOf i) (yOf i) (wOf i)

end Sys2Proof.Machine
end

