-- ==== Sys2Proof/Machine/Instances.lean ====
section
/-! DEFINITION. Several decoder instances over one `IMG` (60_exceptions.md R181): each has its own command list, responses and `FLAGS`; they
share `IMG` and the configuration and nothing else. Commands in flight together must not touch a common byte (20_memory.md R53, R55). -/

namespace Sys2Proof.Machine

/-- What one instance has of its own, the host's side of its run included (R181). -/
structure Port where
  flags : BitVec 2
  program : List HostAction
  pc : Nat
  responses : List Status
  replies : List HostReply
  deriving DecidableEq, Repr

/-- `N_INST = ports.length` instances and the `IMG` they share (R181). -/
structure Cluster where
  imgBytes : Nat
  img : Memory
  ports : List Port
  deriving DecidableEq, Repr

/-- One instance as a machine of its own over the shared `IMG`. -/
def Cluster.view (c : Cluster) (p : Port) : State := ⟨c.img, p.flags, c.imgBytes, p.program, p.pc, p.responses, p.replies⟩

/-- The part of a machine's state that belongs to its instance. -/
def portOf (s : State) : Port := ⟨s.flags, s.program, s.pc, s.responses, s.replies⟩

/-- The cluster after instance `k` reached the state `s`. -/
def Cluster.putBack (c : Cluster) (k : Nat) (s : State) : Cluster := { c with img := s.img, ports := c.ports.set k (portOf s) }

/-- Instance `k` performs its next action while no other instance has one in flight. -/
def Cluster.stepInstance (k : Nat) (c : Cluster) : Host.Outcome Cluster Fault Refusal :=
  match c.ports[k]? with
  | none => .fault .noSuchInstance
  | some p =>
    match step (c.view p) with
    | .next s => .next (c.putBack k s)
    | .fault r => .fault r
    | .refused r => .refused r

/-- Instances perform their next actions one after another. -/
def Cluster.stepAll : List Nat → Cluster → Host.Outcome Cluster Fault Refusal
  | [], c => .next c
  | k :: ks, c =>
    match c.stepInstance k with
    | .next c' => Cluster.stepAll ks c'
    | .fault r => .fault r
    | .refused r => .refused r

/-- The bytes of `IMG` an action touches: a completing command's footprint, a host access's range; none for an access to `FLAGS` and none
for a reset, which does not touch `IMG` (R201). DESIGN CHOICE (log entry 11): a reset of one instance therefore never conflicts with what
another instance has in flight. -/
def touched (imgBytes : Nat) : HostAction → List Nat
  | .command w =>
    match decodeWord w with
    | .ok i => if commandFits imgBytes i then storedAddrs i else []
    | .error _ => []
  | .wrflags _ => []
  | .rdflags => []
  | .read addr n => List.range' addr n
  | .fill addr n _ => List.range' addr n
  | .write addr bytes => List.range' addr bytes.length
  | .reset => []

def isCommand : HostAction → Bool
  | .command _ => true
  | .wrflags _ => false
  | .rdflags => false
  | .read _ _ => false
  | .fill _ _ _ => false
  | .write _ _ => false
  | .reset => false

/-- Two actions in flight together conflict when one is a command and they touch a common byte (R55, R56). DESIGN CHOICE (log entry 10):
two host accesses, no command among them, never conflict, even where they touch a common byte; the spec says nothing of that case. -/
def conflict (imgBytes : Nat) (a b : HostAction) : Bool :=
  (isCommand a || isCommand b) && (touched imgBytes a).any fun n => (touched imgBytes b).contains n

/-- Some two of the actions conflict. -/
def anyConflict (imgBytes : Nat) : List HostAction → Bool
  | [] => false
  | a :: as => as.any (conflict imgBytes a) || anyConflict imgBytes as

/-- The next action of instance `k`. -/
def Cluster.actionOf (c : Cluster) (k : Nat) : Option HostAction :=
  match c.ports[k]? with
  | some p => nextAction (c.view p)
  | none => none

/-- The instances `ks` have their next actions in flight together (R181). Two for one instance are refused (U8); a conflict is a data race
and no winner is picked (R55, U4); otherwise they are performed in the order listed. Among commands, and between a command and a host access,
that order makes no difference to `IMG` (R53), since their bytes are disjoint. DESIGN CHOICE (log entry 10): for host accesses to a common
byte it does, the later write wins and a read sees the writes listed before it; the spec gives them no order. DESIGN CHOICE (log entry 11):
a reset of one instance may be launched together with commands and host accesses of others, and each has its effect as if alone. -/
def Cluster.launch (ks : List Nat) (c : Cluster) : Host.Outcome Cluster Fault Refusal :=
  if ks.Nodup then
    if anyConflict c.imgBytes (ks.filterMap c.actionOf) then .fault .dataRace else Cluster.stepAll ks c
  else .refused .secondActionInFlight

/-- All instances start idle at reset; reset is that of each one (R181, R201). -/
def Cluster.reset (nInst : Nat) : Cluster :=
  ⟨State.reset.imgBytes, State.reset.img, List.replicate nInst (portOf State.reset)⟩

/-- The summary of a texture decoded by several instances: the OR of their `FLAGS` (R181). -/
def Cluster.summary (c : Cluster) : BitVec 2 := c.ports.foldl (fun f p => f ||| p.flags) 0

end Sys2Proof.Machine
end

