-- ==== Sys2Proof/Safety.lean ====
section
/-! DEFINITION. What counts as a sound state and a successful run (20_memory.md R40, R49; 60_exceptions.md R172; 70_reset_and_hazards.md
R203), in the terms the statements use. -/

namespace Sys2Proof.Machine

/-- What each lane of a command decodes to (R140, R141, R142, R151, R161), for this decoder's configuration. -/
def lanesOf : Instr → Lane → Pixel
  | .decRgb _ _ _ blk => lanesRgb config blk
  | .decA1 _ _ _ blk => lanesA1 config blk
  | .decA4 _ _ _ blk => lanesA4 config blk
  | .decA8 _ _ _ blk => lanesA8 config blk

/-- An action that gives a value back to the host. -/
def givesReply : HostAction → Bool
  | .command _ => false
  | .wrflags _ => false
  | .rdflags => true
  | .read _ _ => true
  | .fill _ _ _ => false
  | .write _ _ => false
  | .reset => false

/-- What every step keeps: `IMG` is in its canonical form and holds no byte at or above `IMG_BYTES` (R40, R49); `pc` never passes the end
of the list (R21); there is exactly one response for each command performed (R84) and one reply for each read. -/
abbrev State.Inv (s : State) : Prop :=
  Memory.wf s.img = true ∧ (∀ c ∈ s.img, c.1 < s.imgBytes) ∧ s.pc ≤ s.program.length ∧
    s.responses.length = (s.program.take s.pc).countP isCommand ∧
    s.replies.length = (s.program.take s.pc).countP givesReply

/-- "The run has ended when the response of the last command of every list has been returned" (R203). -/
abbrev State.RunEnded (s : State) : Prop := nextAction s = none

/-- "A run in which some response is not OK has faulted" (R203, R172). -/
abbrev State.RunFaulted (s : State) : Prop := ∃ st ∈ s.responses, st ≠ Status.ok

/-- A successful run: ended, and every response was `OK` (R172). -/
abbrev State.RunSuccessful (s : State) : Prop := s.RunEnded ∧ ∀ st ∈ s.responses, st = Status.ok

/-- "The result of the run is (IMG, FLAGS, the list of responses)" (R203), for one instance. -/
def State.runResult (s : State) : Memory × BitVec 2 × List Status := (s.img, s.flags, s.responses)

/-! ### A run with one list per instance (R203, R181) -/

/-- The run of several instances has ended: no instance has an action left in its own list, so the last command of every list has its
response (R203). -/
abbrev Cluster.RunEnded (c : Cluster) : Prop := ∀ p ∈ c.ports, (c.view p).RunEnded

/-- Some response of some instance is not `OK` (R203, R172). -/
abbrev Cluster.RunFaulted (c : Cluster) : Prop := ∃ p ∈ c.ports, (c.view p).RunFaulted

/-- The run of every instance has ended and every response was `OK` (R172, R203). -/
abbrev Cluster.RunSuccessful (c : Cluster) : Prop := ∀ p ∈ c.ports, (c.view p).RunSuccessful

/-- The result of a run with one list per instance: the shared `IMG`, and for each instance its own `FLAGS` and responses (R203, R181). -/
def Cluster.runResult (c : Cluster) : Memory × List (BitVec 2 × List Status) := (c.img, c.ports.map fun p => (p.flags, p.responses))

end Sys2Proof.Machine
end

