-- ==== Sys2Proof/Certificates/Slice0/Obligations.lean ====
section
/-! DEFINITION. The statements for the provers, from the numbered rules of spec/. -/

open Sys2Proof Sys2Proof.Machine

/-! ### Encoding -/

/-- Every command's word decodes to that command (R71, R73, R85), and its 24 bytes do so with whatever bytes follow left over (R70). -/
def Obligations.EncodedCommandDecodesBack : Prop :=
  ∀ (i : Instr) (rest : List Byte),
    decodeWord (encode i) = .ok i ∧ (encodeBytes i).length = 24 ∧ decodeBytes (encodeBytes i ++ rest) = .ok (i, rest)

/-- R81: the match and mask table selects the command the decoder gives; the rows are mutually exclusive; a word that matches no row has
`VAR = 3` and is the reserved encoding. -/
def Obligations.OpcodeMapIsMatchAndMask : Prop :=
  ∀ w : CmdWord,
    (∀ i, decodeWord w = .ok i → ∀ r ∈ opcodeRows, (w &&& r.mask = r.pattern ↔ r = rowOf i)) ∧
    ((∀ r ∈ opcodeRows, w &&& r.mask ≠ r.pattern) ↔ w.extractLsb' 176 2 = 3) ∧
    (w.extractLsb' 176 2 = 3 ↔ decodeWord w = .error .reservedVariant) ∧
    decodeWord w ≠ .error .truncated

/-- R73: `VAR`, and for `VAR = 0` only `TM`, select the command, its block format (8 or 16 bytes) and the layout it writes; the operands
are the fields of R71. -/
def Obligations.VarAndTmSelectTheCommand : Prop :=
  ∀ w : CmdWord,
    (w.extractLsb' 176 2 = 0 → w.extractLsb' 178 1 = 0 →
      ∃ i, decodeWord w = .ok i ∧ layoutOf i = .rgb ∧
        i = .decRgb (w.extractLsb' 128 16) (w.extractLsb' 144 16) (w.extractLsb' 160 16) (w.extractLsb' 0 64)) ∧
    (w.extractLsb' 176 2 = 0 → w.extractLsb' 178 1 = 1 →
      ∃ i, decodeWord w = .ok i ∧ layoutOf i = .rgba ∧
        i = .decA1 (w.extractLsb' 128 16) (w.extractLsb' 144 16) (w.extractLsb' 160 16) (w.extractLsb' 0 64)) ∧
    (w.extractLsb' 176 2 = 1 →
      ∃ i, decodeWord w = .ok i ∧ layoutOf i = .rgba ∧
        i = .decA4 (w.extractLsb' 128 16) (w.extractLsb' 144 16) (w.extractLsb' 160 16) (w.extractLsb' 0 128)) ∧
    (w.extractLsb' 176 2 = 2 →
      ∃ i, decodeWord w = .ok i ∧ layoutOf i = .rgba ∧
        i = .decA8 (w.extractLsb' 128 16) (w.extractLsb' 144 16) (w.extractLsb' 160 16) (w.extractLsb' 0 128)) ∧
    (w.extractLsb' 176 2 = 3 → ∀ i, decodeWord w ≠ .ok i)

/-- R83: no result depends on `RSV`, on `BLOCK[127:64]` for `VAR = 0`, or on `TM` for `VAR = 1` and `2`; the assembler's encoder writes
them as 0. -/
def Obligations.IgnoredBitsDoNotMatter : Prop :=
  (∀ w w' : CmdWord, w.extractLsb' 0 179 = w'.extractLsb' 0 179 → performCommand w = performCommand w') ∧
  (∀ w w' : CmdWord, w.extractLsb' 176 2 = 0 → w.extractLsb' 0 64 = w'.extractLsb' 0 64 →
    w.extractLsb' 128 51 = w'.extractLsb' 128 51 → performCommand w = performCommand w') ∧
  (∀ w w' : CmdWord, w.extractLsb' 176 2 = 1 ∨ w.extractLsb' 176 2 = 2 → w.extractLsb' 0 178 = w'.extractLsb' 0 178 →
    performCommand w = performCommand w') ∧
  (∀ i : Instr, (encode i).extractLsb' 179 13 = 0 ∧
    ((encode i).extractLsb' 176 2 = 0 → (encode i).extractLsb' 64 64 = 0) ∧
    ((encode i).extractLsb' 176 2 ≠ 0 → (encode i).extractLsb' 178 1 = 0))

/-- Words of 95_test_vectors.md decode to the commands they stand for. -/
def Obligations.WordsOfTheSpecDecode : Prop :=
  decodeWord 0x00000004000000000000000000000000FFAA5500001FF800 = .ok (.decRgb 0 0 4 0xFFAA5500001FF800) ∧
  decodeWord 0x00040004000000000000000000000000E4E4E4E4F800001F = .ok (.decA1 0 0 4 0xE4E4E4E4F800001F) ∧
  decodeWord 0x0001000400000000E4E4E4E4F800001FFEDCBA9876543210 = .ok (.decA4 0 0 4 0xE4E4E4E4F800001FFEDCBA9876543210) ∧
  decodeWord 0x0002000800000004E4E4E4E4F800001FFAC688FAC68800FF = .ok (.decA8 4 0 8 0xE4E4E4E4F800001FFAC688FAC68800FF) ∧
  decodeWord 0x0003000400000000E4E4E4E4001FF800000000000000FF00 = .error .reservedVariant

/-- R85: a well-formed assembler line has a command; its `X`, `Y`, `W` are the numbers written; byte `k` of its block is byte `k` of the
bracketed list; the word it assembles to decodes to it. A line that is not well formed has none. -/
def Obligations.AssembledFieldsAreTheLinesOperands : Prop :=
  (∀ l : AsmLine, l.wellFormed = false → assembleWord l = none) ∧
  (∀ (x y w : Nat) (bs : List Byte), x ≤ 65535 → y ≤ 65535 → w ≤ 65535 → bs.length = 8 →
    ∃ (x' y' w' : Coord) (blk : BitVec 64),
      assembleWord (.decRgb x y w bs) = some (encode (.decRgb x' y' w' blk)) ∧
      assembleWord (.decA1 x y w bs) = some (encode (.decA1 x' y' w' blk)) ∧
      x'.toNat = x ∧ y'.toNat = y ∧ w'.toNat = w ∧ ∀ k < 8, bs[k]? = some (blk.extractLsb' (8 * k) 8)) ∧
  (∀ (x y w : Nat) (bs : List Byte), x ≤ 65535 → y ≤ 65535 → w ≤ 65535 → bs.length = 16 →
    ∃ (x' y' w' : Coord) (blk : BitVec 128),
      assembleWord (.decA4 x y w bs) = some (encode (.decA4 x' y' w' blk)) ∧
      assembleWord (.decA8 x y w bs) = some (encode (.decA8 x' y' w' blk)) ∧
      x'.toNat = x ∧ y'.toNat = y ∧ w'.toNat = w ∧ ∀ k < 16, bs[k]? = some (blk.extractLsb' (8 * k) 8))

/-- R86: `dec.c1` assembles to `dec.rgb` when `TM = 0` and to `dec.a1` when `TM = 1`. -/
def Obligations.PseudoCommandAssembles : Prop :=
  ∀ (x y w : Nat) (bs : List Byte),
    assembleWord (.decC1 false x y w bs) = assembleWord (.decRgb x y w bs) ∧
    assembleWord (.decC1 true x y w bs) = assembleWord (.decA1 x y w bs)

/-! ### The step, reset, the run -/

/-- A step whose action is a command word that decodes to `i` is `exec i` at that state, nothing around it: the response and the advance
of `pc` are the command's own (R21, R50). -/
def Obligations.StepRunsTheDecodedCommand : Prop :=
  ∀ (s : State) (w : CmdWord) (i : Instr),
    nextAction s = some (.command w) → decodeWord w = .ok i → step s = exec i s

/-- R174: a command word is examined for `VAR` first, then for its footprint, then decoded; it is answered by exactly one response, with
code 1, 2 or 0 accordingly, and `pc` advances whatever the code (R21). -/
def Obligations.EveryCommandWordIsAnsweredInOrder : Prop :=
  ∀ (s : State) (w : CmdWord), nextAction s = some (.command w) →
    ∃ (t : State) (st : Status), step s = .next t ∧ t.pc = s.pc + 1 ∧ t.responses = s.responses ++ [st] ∧
      statusCode st =
        if w.extractLsb' 176 2 = 3 then 1
        else
          let X := (w.extractLsb' 128 16).toNat
          let Y := (w.extractLsb' 144 16).toNat
          let W := (w.extractLsb' 160 16).toNat
          let BPP := if w.extractLsb' 176 2 = 0 ∧ w.extractLsb' 178 1 = 0 then 3 else 4
          if X + 4 > W ∨ ((Y + 3) * W + (X + 3)) * BPP + BPP > s.imgBytes then 2 else 0

/-- R82: `VAR = 3` is refused by the decoder and raises `IllegalCommand`: nothing but the response and the advance of the host's index. -/
def Obligations.ReservedVariantRaisesIllegalCommand : Prop :=
  ∀ (s : State) (w : CmdWord), nextAction s = some (.command w) → w.extractLsb' 176 2 = 3 →
    decodeWord w = .error .reservedVariant ∧
    step s = .next { s with pc := s.pc + 1, responses := s.responses ++ [.illegalCommand] } ∧
    statusCode .illegalCommand = 1

/-- Where the host's list has ended the decoder is idle and a step changes nothing (R203; log entry 9, the model's choice). -/
def Obligations.EndedRunIsIdle : Prop :=
  ∀ s : State, s.RunEnded → step s = .next s

/-- Reset leaves `FLAGS = 0b00`, no command in flight, no response pending (R29, R201); that no byte of `IMG` has a value is the model's
form of "unspecified" (log entry 1). -/
def Obligations.ResetLeavesFlagsClearAndIdle : Prop :=
  flagFT State.reset.flags = false ∧ flagPT State.reset.flags = false ∧
  nextAction State.reset = none ∧ State.reset.responses = [] ∧ State.reset.pc = 0 ∧
  ∀ a, readByte State.reset.img a = none

/-- R201 as an event of a run: both flags become 0 and `IMG` is not touched. -/
def Obligations.HostResetClearsFlagsAlone : Prop :=
  ∀ s : State, nextAction s = some .reset → step s = .next { s with flags := 0, pc := s.pc + 1 }

/-- Every step keeps: `IMG` canonical and inside `IMG_BYTES` (R40, R49), `pc` inside the list (R21), one response for each command (R84). -/
def Obligations.StepKeepsInvariant : Prop :=
  ∀ s t : State, s.Inv → step s = .next t → t.Inv

def Obligations.ResetMeetsInvariant : Prop := State.reset.Inv

/-- `IMG_BYTES` is a constant of a run (R207) and the list of commands is the host's: no step changes either. -/
def Obligations.RunParametersNeverChange : Prop :=
  ∀ s t : State, step s = .next t → t.imgBytes = s.imgBytes ∧ t.program = s.program

/-- A run in which some response is not `OK` has faulted and never becomes a successful one (R172, R203). -/
def Obligations.FaultedRunStaysFaulted : Prop :=
  ∀ s t : State, s.RunFaulted → step s = .next t → t.RunFaulted ∧ ¬ t.RunSuccessful

/-- R172: raising an exception writes no byte of `IMG`, keeps `FLAGS`, returns the code of the exception and leaves the decoder ready for
the next command; the run has faulted. -/
def Obligations.RaisedExceptionOnlyReports : Prop :=
  ∀ (s : State) (e : Exc),
    s.raise e = { s with pc := s.pc + 1, responses := s.responses ++ [excStatus e] } ∧
    statusCode (excStatus e) = (match e with | .illegalCommand => 1 | .footprintOutOfBounds => 2) ∧
    (s.raise e).RunFaulted ∧ ¬ (s.raise e).RunSuccessful

/-- Only the host's write and a reset clear a flag: every other step keeps each flag that is set (R23, R24, R201). -/
def Obligations.OnlyHostClearsFlags : Prop :=
  ∀ s t : State, step s = .next t → (∀ v, nextAction s ≠ some (.wrflags v)) → nextAction s ≠ some .reset →
    (flagFT s.flags = true → flagFT t.flags = true) ∧ (flagPT s.flags = true → flagPT t.flags = true)

/-! ### The footprint -/

/-- R171: the footprint check of every command, and that a failed one has no effect but the response 2. -/
def Obligations.FootprintCheckGuardsEveryCommand : Prop :=
  ∀ (i : Instr) (s : State),
    let X := (xOf i).toNat
    let Y := (yOf i).toNat
    let W := (wOf i).toNat
    let BPP := bpp (layoutOf i)
    (X + 4 > W ∨ ((Y + 3) * W + (X + 3)) * BPP + BPP > s.imgBytes →
      exec i s = .next { s with pc := s.pc + 1, responses := s.responses ++ [.footprintOutOfBounds] }) ∧
    (¬ (X + 4 > W ∨ ((Y + 3) * W + (X + 3)) * BPP + BPP > s.imgBytes) →
      ∃ t, exec i s = .next t ∧ t.responses = s.responses ++ [.ok])

/-- Containment (R49, R171): every byte a completing command stores to lies inside `IMG`. -/
def Obligations.StoredBytesLieInsideImg : Prop :=
  ∀ (i : Instr) (imgBytes : Nat), commandFits imgBytes i = true → ∀ a ∈ storedAddrs i, a < imgBytes

/-- R45: the pixel address is exact in the natural numbers and never above 17180393472, which is below 2^35. -/
def Obligations.PixelAddressIsExact : Prop :=
  ∀ (x y w : Coord) (l : Layout) (p : Lane),
    pixelAddr x y w (bpp l) p = ((y.toNat + p.val / 4) * w.toNat + (x.toNat + p.val % 4)) * bpp l ∧
    pixelAddr x y w (bpp l) p ≤ 17180393472 ∧ 17180393472 < 2 ^ 35

/-- R52: under `X + 4 <= W` the bytes of the sixteen pixels are pairwise distinct, so the order of the writes cannot be observed: any
order of the lanes leaves the same bytes as the ascending one. -/
def Obligations.WriteOrderCannotBeObserved : Prop :=
  ∀ (x y w : Coord) (l : Layout), x.toNat + 4 ≤ w.toNat →
    (∀ (p q : Lane) (j k : Nat), j < bpp l → k < bpp l →
      pixelAddr x y w (bpp l) p + j = pixelAddr x y w (bpp l) q + k → p = q ∧ j = k) ∧
    (∀ (px : Lane → Pixel) (m : Memory) (ps : List Lane), ps.Perm lanes →
      ∀ a, readByte (ps.foldl (writePixel l x y w px) m) a = readByte (writeBlock l x y w px m) a)

/-- R47: a completing command stores to exactly `16 * BPP` different bytes, 48 for `DEC_RGB` and 64 for the others, and every one of them
has a value afterwards. -/
def Obligations.CommandWritesItsWholeFootprint : Prop :=
  ∀ (i : Instr) (s t : State), commandFits s.imgBytes i = true → exec i s = .next t →
    (storedAddrs i).Nodup ∧
    (storedAddrs i).length = (match i with | .decRgb .. => 48 | .decA1 .. => 64 | .decA4 .. => 64 | .decA8 .. => 64) ∧
    ∀ a ∈ storedAddrs i, readByte t.img a ≠ none

/-! ### The commands -/

/-- R141. `DEC_RGB` completes when its footprint fits: each pixel is three bytes R, G, B, the palette entry of its index, or black at the
special slot (the slot with no value); `FLAGS` keeps its value. Otherwise `FootprintOutOfBounds`, nothing else changed. Last, that a command
word with its encoding and these fields performs it. -/
def Obligations.DecRgbCompletes : Prop :=
  ∀ (x y w : Coord) (blk : BitVec 64) (s : State),
    (x.toNat + 4 ≤ w.toNat → ((y.toNat + 3) * w.toNat + x.toNat + 3) * 3 + 3 ≤ s.imgBytes →
      ∃ t, exec (.decRgb x y w blk) s = .next t ∧
        t.pc = s.pc + 1 ∧ t.responses = s.responses ++ [.ok] ∧ t.flags = s.flags ∧
        ∀ p : Lane,
          let a := ((y.toNat + p.val / 4) * w.toNat + (x.toNat + p.val % 4)) * 3
          let P := palette4 config (le16 blk 0) (le16 blk 2) false
          let c := (P.pick ((le32 blk 4).extractLsb' (2 * p.val) 2)).getD ⟨0, 0, 0⟩
          readByte t.img a = some c.r ∧ readByte t.img (a + 1) = some c.g ∧ readByte t.img (a + 2) = some c.b) ∧
    (x.toNat + 4 > w.toNat ∨ ((y.toNat + 3) * w.toNat + x.toNat + 3) * 3 + 3 > s.imgBytes →
      exec (.decRgb x y w blk) s = .next (s.raise .footprintOutOfBounds)) ∧
    (∀ c : CmdWord, c.extractLsb' 176 2 = 0 → c.extractLsb' 178 1 = 0 →
      c.extractLsb' 128 16 = x → c.extractLsb' 144 16 = y → c.extractLsb' 160 16 = w → c.extractLsb' 0 64 = blk →
      performCommand c s = exec (.decRgb x y w blk) s)

/-- R142. `DEC_A1` completes when its footprint fits: four bytes R, G, B, A; alpha 0 and the colour `SLOT3_RGBA_RGB` at the special slot,
else the palette entry and alpha 255; `FT` is set by a special-slot pixel, `PT` never changes. -/
def Obligations.DecA1Completes : Prop :=
  ∀ (x y w : Coord) (blk : BitVec 64) (s : State),
    let P := palette4 config (le16 blk 0) (le16 blk 2) false
    let cidx := fun p : Lane => (le32 blk 4).extractLsb' (2 * p.val) 2
    (x.toNat + 4 ≤ w.toNat → ((y.toNat + 3) * w.toNat + x.toNat + 3) * 4 + 4 ≤ s.imgBytes →
      ∃ t, exec (.decA1 x y w blk) s = .next t ∧
        t.pc = s.pc + 1 ∧ t.responses = s.responses ++ [.ok] ∧
        (flagFT t.flags = true ↔ flagFT s.flags = true ∨ ∃ p, P.special = true ∧ cidx p = 3) ∧
        flagPT t.flags = flagPT s.flags ∧
        ∀ p : Lane,
          let a := ((y.toNat + p.val / 4) * w.toNat + (x.toNat + p.val % 4)) * 4
          let c := (P.pick (cidx p)).getD config.slot3
          readByte t.img a = some c.r ∧ readByte t.img (a + 1) = some c.g ∧ readByte t.img (a + 2) = some c.b ∧
          readByte t.img (a + 3) = some (if P.special = true ∧ cidx p = 3 then 0 else 255)) ∧
    (x.toNat + 4 > w.toNat ∨ ((y.toNat + 3) * w.toNat + x.toNat + 3) * 4 + 4 > s.imgBytes →
      exec (.decA1 x y w blk) s = .next (s.raise .footprintOutOfBounds)) ∧
    (∀ c : CmdWord, c.extractLsb' 176 2 = 0 → c.extractLsb' 178 1 = 1 →
      c.extractLsb' 128 16 = x → c.extractLsb' 144 16 = y → c.extractLsb' 160 16 = w → c.extractLsb' 0 64 = blk →
      performCommand c s = exec (.decA1 x y w blk) s)

/-- R151. `DEC_A4` completes when its footprint fits: the colour as `DEC_A1` from bytes 8 to 15 of the block, the alpha always the pixel's
own nibble times 17; `FT` is set by a nibble 0, `PT` by a nibble in 1 to 14. -/
def Obligations.DecA4Completes : Prop :=
  ∀ (x y w : Coord) (blk : BitVec 128) (s : State),
    let P := palette4 config (le16 blk 8) (le16 blk 10) false
    let cidx := fun p : Lane => (le32 blk 12).extractLsb' (2 * p.val) 2
    let nib := fun p : Lane => ((le64 blk 0).extractLsb' (4 * p.val) 4).toNat
    (x.toNat + 4 ≤ w.toNat → ((y.toNat + 3) * w.toNat + x.toNat + 3) * 4 + 4 ≤ s.imgBytes →
      ∃ t, exec (.decA4 x y w blk) s = .next t ∧
        t.pc = s.pc + 1 ∧ t.responses = s.responses ++ [.ok] ∧
        (flagFT t.flags = true ↔ flagFT s.flags = true ∨ ∃ p, nib p = 0) ∧
        (flagPT t.flags = true ↔ flagPT s.flags = true ∨ ∃ p, 1 ≤ nib p ∧ nib p ≤ 14) ∧
        ∀ p : Lane,
          let a := ((y.toNat + p.val / 4) * w.toNat + (x.toNat + p.val % 4)) * 4
          let c := (P.pick (cidx p)).getD config.slot3
          readByte t.img a = some c.r ∧ readByte t.img (a + 1) = some c.g ∧ readByte t.img (a + 2) = some c.b ∧
          readByte t.img (a + 3) = some (BitVec.ofNat 8 (nib p * 17))) ∧
    (x.toNat + 4 > w.toNat ∨ ((y.toNat + 3) * w.toNat + x.toNat + 3) * 4 + 4 > s.imgBytes →
      exec (.decA4 x y w blk) s = .next (s.raise .footprintOutOfBounds)) ∧
    (∀ c : CmdWord, c.extractLsb' 176 2 = 1 →
      c.extractLsb' 128 16 = x → c.extractLsb' 144 16 = y → c.extractLsb' 160 16 = w → c.extractLsb' 0 128 = blk →
      performCommand c s = exec (.decA4 x y w blk) s)

/-- R161. `DEC_A8` completes when its footprint fits: the colour from the palette forced to four colours, the alpha from the alpha table;
`FT` is set by a selected entry 0, `PT` by a selected entry in 1 to 254. -/
def Obligations.DecA8Completes : Prop :=
  ∀ (x y w : Coord) (blk : BitVec 128) (s : State),
    let P := palette4 config (le16 blk 8) (le16 blk 10) true
    let T := alphaTable (blkByte blk 0) (blkByte blk 1)
    let ea := fun p : Lane => alphaEntry T ((le48 blk 2).extractLsb' (3 * p.val) 3)
    (x.toNat + 4 ≤ w.toNat → ((y.toNat + 3) * w.toNat + x.toNat + 3) * 4 + 4 ≤ s.imgBytes →
      ∃ t, exec (.decA8 x y w blk) s = .next t ∧
        t.pc = s.pc + 1 ∧ t.responses = s.responses ++ [.ok] ∧
        (flagFT t.flags = true ↔ flagFT s.flags = true ∨ ∃ p, ea p = 0) ∧
        (flagPT t.flags = true ↔ flagPT s.flags = true ∨ ∃ p, 0 < (ea p).toNat ∧ (ea p).toNat < 255) ∧
        ∀ p : Lane,
          let a := ((y.toNat + p.val / 4) * w.toNat + (x.toNat + p.val % 4)) * 4
          ∃ c, P.pick ((le32 blk 12).extractLsb' (2 * p.val) 2) = some c ∧
            readByte t.img a = some c.r ∧ readByte t.img (a + 1) = some c.g ∧ readByte t.img (a + 2) = some c.b ∧
            readByte t.img (a + 3) = some (ea p)) ∧
    (x.toNat + 4 > w.toNat ∨ ((y.toNat + 3) * w.toNat + x.toNat + 3) * 4 + 4 > s.imgBytes →
      exec (.decA8 x y w blk) s = .next (s.raise .footprintOutOfBounds)) ∧
    (∀ c : CmdWord, c.extractLsb' 176 2 = 2 →
      c.extractLsb' 128 16 = x → c.extractLsb' 144 16 = y → c.extractLsb' 160 16 = w → c.extractLsb' 0 128 = blk →
      performCommand c s = exec (.decA8 x y w blk) s)

/-- The frame of all four commands (R44, R47, R141, R142, R172): every byte outside the bytes stored to reads as before, and where the
check fails, every byte; `IMG_BYTES`, the host's list and the host's replies are unchanged; `DEC_RGB` changes no flag, `DEC_A1` never
`PT`, and a command that does not fit no flag. -/
def Obligations.CommandsChangeNothingElse : Prop :=
  ∀ (i : Instr) (s t : State), exec i s = .next t →
    (∀ a, a ∉ storedAddrs i → readByte t.img a = readByte s.img a) ∧
    (commandFits s.imgBytes i = false → t.img = s.img ∧ t.flags = s.flags) ∧
    t.imgBytes = s.imgBytes ∧ t.program = s.program ∧ t.replies = s.replies ∧
    (match i with
      | .decRgb .. => t.flags = s.flags
      | .decA1 .. => flagPT t.flags = flagPT s.flags
      | .decA4 .. => True
      | .decA8 .. => True)

/-- R23: a command that completes ORs its block flags (R125) into `FLAGS`; one that ends with the exception leaves `FLAGS` unchanged;
either way a set bit stays set. -/
def Obligations.FlagsAccumulateByOr : Prop :=
  ∀ (i : Instr) (s t : State), exec i s = .next t →
    (commandFits s.imgBytes i = true →
      (flagFT t.flags = true ↔ flagFT s.flags = true ∨ ∃ p, (lanesOf i p).alpha.toNat = 0) ∧
      (flagPT t.flags = true ↔ flagPT s.flags = true ∨ ∃ p, 0 < (lanesOf i p).alpha.toNat ∧ (lanesOf i p).alpha.toNat < 255)) ∧
    (commandFits s.imgBytes i = false → t.flags = s.flags) ∧
    (flagFT s.flags = true → flagFT t.flags = true) ∧ (flagPT s.flags = true → flagPT t.flags = true)

/-- R43: no command's result depends on what `IMG` held: from two states that agree in `FLAGS` and `IMG_BYTES` a command leaves the same
flags, the same response and the same bytes in its footprint. -/
def Obligations.CommandsDoNotReadImg : Prop :=
  ∀ (i : Instr) (s s' t t' : State), s.imgBytes = s'.imgBytes → s.flags = s'.flags →
    exec i s = .next t → exec i s' = .next t' →
    t.flags = t'.flags ∧
    (∃ st, t.responses = s.responses ++ [st] ∧ t'.responses = s'.responses ++ [st]) ∧
    (commandFits s.imgBytes i = true → ∀ a ∈ storedAddrs i, readByte t.img a = readByte t'.img a)

/-- R48: `IMG` is plain memory (a write has no effect but the stored byte), and performing a command word twice leaves `IMG` and `FLAGS`
as performing it once. -/
def Obligations.CommandIsIdempotent : Prop :=
  (∀ (m : Memory) (a b : Nat) (v : Byte), readByte (writeByte m a v) b = if a = b then some v else readByte m b) ∧
  (∀ (w : CmdWord) (s t u : State), Memory.wf s.img = true →
    performCommand w s = .next t → performCommand w t = .next u → u.img = t.img ∧ u.flags = t.flags)

/-- R53: two commands with disjoint footprints commute: performed in either order by one instance they leave the same `IMG` and the same
`FLAGS`; performed by two instances at once they complete, and which is performed first makes no difference to `IMG` nor to the registers
and responses of any instance. The clause for two instances rests on the model's `Cluster.launch`, which performs actions in flight together
one after another in the order listed (log entry 8); it says that both orders agree. -/
def Obligations.DisjointCommandsCommute : Prop :=
  (∀ (i j : Instr) (s t u t' u' : State), Memory.wf s.img = true → (∀ a ∈ storedAddrs i, a ∉ storedAddrs j) →
    exec i s = .next t → exec j t = .next u → exec j s = .next t' → exec i t' = .next u' →
    u.img = u'.img ∧ u.flags = u'.flags) ∧
  (∀ (c : Cluster) (j k : Nat) (wj wk : CmdWord), j ≠ k → Memory.wf c.img = true →
    c.actionOf j = some (.command wj) → c.actionOf k = some (.command wk) →
    (∀ a ∈ touched c.imgBytes (.command wj), a ∉ touched c.imgBytes (.command wk)) →
    ∃ c', c.launch [j, k] = .next c' ∧ c.launch [k, j] = .next c')

/-- R54: after two commands of one instance, every byte of the later one's footprint holds what the later one writes. -/
def Obligations.LaterCommandWins : Prop :=
  ∀ (i j : Instr) (s t u : State), exec i s = .next t → exec j t = .next u → commandFits s.imgBytes j = true →
    ∀ (p : Lane) (k : Nat), k < bpp (layoutOf j) →
      readByte u.img (pixelAddr (xOf j) (yOf j) (wOf j) (bpp (layoutOf j)) p + k)
        = some ((pixelValue (lanesOf j p)).extractLsb' (8 * k) 8)

/-! ### The datapath -/

/-- R101, R102, R103: each channel of a packed colour is its 5- or 6-bit field scaled to 8 bits, rounded to the nearest integer (the
values are the spec's decision D5). -/
def Obligations.Expand565IsNearestScaling : Prop :=
  ∀ c : Packed565,
    (expand565 config c).r.toNat = (c.toNat / 2048 * 255 + 15) / 31 ∧
    (expand565 config c).g.toNat = (c.toNat / 32 % 64 * 255 + 31) / 63 ∧
    (expand565 config c).b.toNat = (c.toNat % 32 * 255 + 15) / 31

/-- Two references that expand to the same colour are the same packed value (R105, with the tables of R101 and R102). -/
def Obligations.ExpansionIsInjective : Prop :=
  ∀ c d : Packed565, expand565 config c = expand565 config d → c = d

/-- R104, R105, for every configuration: entries 0 and 1 are the expanded references; the 3-colour branch is taken exactly when it is not
forced off and `c0 <= c1` as raw numbers; only slot 3 of that branch has no value. -/
def Obligations.BranchComparesRawReferences : Prop :=
  ∀ (cfg : Config) (c0 c1 : Packed565) (force4 : Bool),
    let P := palette4 cfg c0 c1 force4
    P.pick 0 = some (expand565 cfg c0) ∧ P.pick 1 = some (expand565 cfg c1) ∧
    (P.special = true ↔ ¬ (force4 = true ∨ c0.toNat > c1.toNat)) ∧
    ∀ i : BitVec 2, P.pick i = none ↔ P.special = true ∧ i = 3

/-- R106, for every configuration: the two interpolated entries of the 4-colour branch, floor division, each channel separately. -/
def Obligations.FourColourRampFloors : Prop :=
  ∀ (cfg : Config) (c0 c1 : Packed565) (force4 : Bool), force4 = true ∨ c0.toNat > c1.toNat →
    let e0 := expand565 cfg c0
    let e1 := expand565 cfg c1
    ∃ p2 p3 : Rgb, (palette4 cfg c0 c1 force4).pick 2 = some p2 ∧ (palette4 cfg c0 c1 force4).pick 3 = some p3 ∧
      p2.r.toNat = (2 * e0.r.toNat + e1.r.toNat) / 3 ∧ p3.r.toNat = (e0.r.toNat + 2 * e1.r.toNat) / 3 ∧
      p2.g.toNat = (2 * e0.g.toNat + e1.g.toNat) / 3 ∧ p3.g.toNat = (e0.g.toNat + 2 * e1.g.toNat) / 3 ∧
      p2.b.toNat = (2 * e0.b.toNat + e1.b.toNat) / 3 ∧ p3.b.toNat = (e0.b.toNat + 2 * e1.b.toNat) / 3

/-- R107, for every configuration: the midpoint of the 3-colour branch, floor division, and slot 3 without a value. -/
def Obligations.ThreeColourRampFloors : Prop :=
  ∀ (cfg : Config) (c0 c1 : Packed565), c0.toNat ≤ c1.toNat →
    let e0 := expand565 cfg c0
    let e1 := expand565 cfg c1
    (palette4 cfg c0 c1 false).pick 3 = none ∧
    ∃ p2 : Rgb, (palette4 cfg c0 c1 false).pick 2 = some p2 ∧
      p2.r.toNat = (e0.r.toNat + e1.r.toNat) / 2 ∧ p2.g.toNat = (e0.g.toNat + e1.g.toNat) / 2 ∧
      p2.b.toNat = (e0.b.toNat + e1.b.toNat) / 2

/-- R115, R116: the 8-level alpha table. -/
def Obligations.AlphaTableEightLevels : Prop :=
  ∀ a0 a1 : Byte, a0.toNat > a1.toNat →
    (alphaTable a0 a1)[0] = a0 ∧ (alphaTable a0 a1)[1] = a1 ∧
    ∀ k (h : k < 8), 2 ≤ k → ((alphaTable a0 a1)[k]).toNat = ((8 - k) * a0.toNat + (k - 1) * a1.toNat) / 7

/-- R115, R117: the 6-level alpha table, equal endpoints included. -/
def Obligations.AlphaTableSixLevels : Prop :=
  ∀ a0 a1 : Byte, a0.toNat ≤ a1.toNat →
    (alphaTable a0 a1)[0] = a0 ∧ (alphaTable a0 a1)[1] = a1 ∧
    (∀ k (h : k < 8), 2 ≤ k → k ≤ 5 → ((alphaTable a0 a1)[k]).toNat = ((6 - k) * a0.toNat + (k - 1) * a1.toNat) / 5) ∧
    (alphaTable a0 a1)[6] = 0 ∧ (alphaTable a0 a1)[7] = 255

/-- R150: the explicit alpha of pixel `p` is the nibble at bit `4*p` of the first eight bytes, times 17. -/
def Obligations.ExplicitAlphaIsNibbleTimes17 : Prop :=
  ∀ (blk : BitVec 128) (p : Lane),
    (explicitAlpha blk p).toNat = blk.toNat / 2 ^ (4 * p.val) % 16 * 17

/-- R74, R76, R77, R79: the fields of the block formats as numbers: references and endpoints little-endian, colour indices at `2*p` of the
index grid, alpha indices at `3*p` (decision D6). -/
def Obligations.BlockFieldsAreLittleEndian : Prop :=
  (∀ (cb : BitVec 64) (p : Lane),
    (ref0 cb).toNat = (blkByte cb 0).toNat + 256 * (blkByte cb 1).toNat ∧
    (ref1 cb).toNat = (blkByte cb 2).toNat + 256 * (blkByte cb 3).toNat ∧
    (colourIndex config cb p).toNat =
      ((blkByte cb 4).toNat + 256 * (blkByte cb 5).toNat + 65536 * (blkByte cb 6).toNat + 16777216 * (blkByte cb 7).toNat)
        / 2 ^ (2 * p.val) % 4) ∧
  (∀ (blk : BitVec 128) (p : Lane),
    (alpha0 blk).toNat = blk.toNat % 256 ∧ (alpha1 blk).toNat = blk.toNat / 256 % 256 ∧
    (alphaIndex config blk p).toNat = blk.toNat / 2 ^ (16 + 3 * p.val) % 8 ∧
    (colourBlock blk).toNat = blk.toNat / 2 ^ 64)

/-- R118: a ramp step is computed exactly (nothing overflows) and lies between its two endpoints. -/
def Obligations.RampStepsLieBetweenEndpoints : Prop :=
  ∀ (wa wb : Nat) (a b : Byte), 0 < wa + wb →
    (weighted wa wb (wa + wb) a b).toNat = (wa * a.toNat + wb * b.toNat) / (wa + wb) ∧
    min a.toNat b.toNat ≤ (weighted wa wb (wa + wb) a b).toNat ∧
    (weighted wa wb (wa + wb) a b).toNat ≤ max a.toNat b.toNat

/-! ### The host -/

/-- R24: the host may write any value to `FLAGS` and reads the value the last command left; neither touches anything else. -/
def Obligations.HostReadsAndWritesFlags : Prop :=
  ∀ s : State,
    (∀ v, nextAction s = some (.wrflags v) → step s = .next { s with flags := v, pc := s.pc + 1 }) ∧
    (nextAction s = some .rdflags → step s = .next { s with pc := s.pc + 1, replies := s.replies ++ [.flags s.flags] })

/-- The host's accesses to `IMG` (70_reset_and_hazards.md section 6, R48): a fill and a write store their bytes and leave every other
byte; a read gives back what each byte holds; all else is unchanged; a range outside `IMG` faults. -/
def Obligations.HostAccessesImg : Prop :=
  ∀ s : State,
    (∀ a n v, nextAction s = some (.fill a n v) → a + n ≤ s.imgBytes →
      ∃ t, step s = .next t ∧ t = { s with img := t.img, pc := s.pc + 1 } ∧
        ∀ b, readByte t.img b = if a ≤ b ∧ b < a + n then some v else readByte s.img b) ∧
    (∀ a bs, nextAction s = some (.write a bs) → a + bs.length ≤ s.imgBytes →
      ∃ t, step s = .next t ∧ t = { s with img := t.img, pc := s.pc + 1 } ∧
        ∀ b, readByte t.img b = if a ≤ b ∧ b < a + bs.length then bs[b - a]? else readByte s.img b) ∧
    (∀ a n, nextAction s = some (.read a n) → a + n ≤ s.imgBytes →
      ∃ bs : List (Option Byte), bs.length = n ∧ (∀ k < n, bs[k]? = some (readByte s.img (a + k))) ∧
        step s = .next { s with pc := s.pc + 1, replies := s.replies ++ [.bytes bs] }) ∧
    (∀ a n v, nextAction s = some (.fill a n v) → s.imgBytes < a + n → step s = .fault .hostRangeOutsideImg) ∧
    (∀ a bs, nextAction s = some (.write a bs) → s.imgBytes < a + bs.length → step s = .fault .hostRangeOutsideImg) ∧
    (∀ a n, nextAction s = some (.read a n) → s.imgBytes < a + n → step s = .fault .hostRangeOutsideImg)

/-! ### Several instances -/

/-- R181: an instance's step changes the shared `IMG` and what is its own, and nothing of any other instance. -/
def Obligations.InstancesShareOnlyImg : Prop :=
  ∀ (k : Nat) (c c' : Cluster), c.stepInstance k = .next c' →
    c'.imgBytes = c.imgBytes ∧ c'.ports.length = c.ports.length ∧ ∀ j, j ≠ k → c'.ports[j]? = c.ports[j]?

/-- R55: two completing commands of different instances in flight together whose footprints share a byte are a data race, a fault; no
winner is picked. -/
def Obligations.OverlapInFlightIsARace : Prop :=
  ∀ (c : Cluster) (j k : Nat) (wj wk : CmdWord) (ij ik : Instr) (a : Nat), j ≠ k →
    c.actionOf j = some (.command wj) → c.actionOf k = some (.command wk) →
    decodeWord wj = .ok ij → decodeWord wk = .ok ik →
    commandFits c.imgBytes ij = true → commandFits c.imgBytes ik = true →
    a ∈ storedAddrs ij → a ∈ storedAddrs ik →
    c.launch [j, k] = .fault .dataRace

/-- R203 for one list per instance: the run has ended exactly when no instance has an action left; then instances launched together stay as
they are (log entry 9, the model's choice), so the result is final. An ended run is a successful one or a faulted one, never both. -/
def Obligations.ClusterRunEndsWithEveryList : Prop :=
  ∀ c : Cluster,
    (c.RunEnded ↔ ∀ k < c.ports.length, c.actionOf k = none) ∧
    (c.RunEnded → ∀ ks : List Nat, ks.Nodup → (∀ k ∈ ks, k < c.ports.length) → c.launch ks = .next c) ∧
    (c.RunEnded → (c.RunSuccessful ↔ ¬ c.RunFaulted)) ∧
    (c.RunFaulted → ¬ c.RunSuccessful)

/-- R203, R172 for one list per instance: once some response of some instance is not `OK` the run of the cluster has faulted, and whatever
instances act next, one alone or several together, it stays so and is never a successful one. -/
def Obligations.FaultedClusterRunStaysFaulted : Prop :=
  ∀ c c' : Cluster, c.RunFaulted →
    (∀ k, c.stepInstance k = .next c' → c'.RunFaulted ∧ ¬ c'.RunSuccessful) ∧
    (∀ ks, c.launch ks = .next c' → c'.RunFaulted ∧ ¬ c'.RunSuccessful)
end

