-- ==== Sys2Proof/Laws/Bits.lean ====
section
/-! SUPPORT. Slices of concatenations: the encoder puts fields together, the decoder and the pixel writer take them apart. -/

namespace Sys2Proof

/-- A slice of the upper part of a concatenation. -/
theorem extractLsb_append_high {n m : Nat} (x : BitVec n) (y : BitVec m) (off k : Nat) :
    (x ++ y).extractLsb' (m + off) k = x.extractLsb' off k := by
  ext i hi
  simp [BitVec.getLsbD_append, show ¬(m + off + i < m) by omega, show m + off + i - m = off + i by omega]

/-- A slice of the lower part of a concatenation. -/
theorem extractLsb_append_low {n m : Nat} (x : BitVec n) (y : BitVec m) {off k : Nat} (h : off + k ≤ m) :
    (x ++ y).extractLsb' off k = y.extractLsb' off k := by
  ext i hi
  simp [BitVec.getLsbD_append, show off + i < m by omega]

end Sys2Proof
end

