-- ==== Sys2Proof/Laws/Memory.lean ====
section
/-! SUPPORT. The laws of `IMG`: a read after a write, the canonical form, and that a canonical memory is determined by what it reads as. -/

namespace Sys2Proof.Machine

/-! ### One byte -/

theorem readByte_writeByte (m : Memory) (a b : Nat) (v : Byte) :
    readByte (writeByte m a v) b = if a = b then some v else readByte m b := by
  induction m with
  | nil => simp [writeByte, readByte]
  | cons c m ih =>
    obtain ⟨k, u⟩ := c
    by_cases h1 : a < k
    · simp [writeByte, h1, readByte]
    · by_cases h2 : a = k
      · subst h2; by_cases hab : a = b <;> simp [writeByte, readByte, hab]
      · by_cases h3 : k = b
        · subst h3; simp [writeByte, h1, h2, readByte]
        · simp [writeByte, h1, h2, readByte, h3, ih]

@[simp] theorem readByte_writeByte_same (m : Memory) (a : Nat) (v : Byte) : readByte (writeByte m a v) a = some v := by
  simp [readByte_writeByte]

theorem readByte_writeByte_ne (m : Memory) {a b : Nat} (v : Byte) (h : a ≠ b) : readByte (writeByte m a v) b = readByte m b := by
  simp [readByte_writeByte, h]

/-- A byte that reads as a value is an entry of the list, and so lies below any bound on the entries. -/
theorem mem_of_readByte {m : Memory} {a : Nat} {v : Byte} (h : readByte m a = some v) : (a, v) ∈ m := by
  induction m with
  | nil => simp [readByte] at h
  | cons c m ih =>
    obtain ⟨k, u⟩ := c
    unfold readByte at h
    split_ifs at h <;> simp_all

theorem mem_writeByte {m : Memory} {a : Nat} {v : Byte} {c : Host.Cell} (h : c ∈ writeByte m a v) : c = (a, v) ∨ c ∈ m := by
  induction m with
  | nil => simpa [writeByte] using h
  | cons d m ih =>
    obtain ⟨k, u⟩ := d
    unfold writeByte at h
    split_ifs at h <;> simp only [List.mem_cons] at h ⊢ <;> tauto

/-! ### The canonical form -/

theorem memory_wf_cons {a : Nat} {v : Byte} {m : Memory} :
    Memory.wf ((a, v) :: m) = true ↔ (∀ c ∈ m, a < c.1) ∧ Memory.wf m = true := by
  induction m generalizing a v with
  | nil => simp [Memory.wf]
  | cons c m ih =>
    obtain ⟨b, u⟩ := c
    simp only [Memory.wf, Bool.and_eq_true, decide_eq_true_eq, List.mem_cons, forall_eq_or_imp]
    constructor
    · rintro ⟨h, hw⟩
      exact ⟨⟨h, fun c hc => h.trans ((ih.1 hw).1 c hc)⟩, hw⟩
    · rintro ⟨⟨h, -⟩, hw⟩
      exact ⟨h, hw⟩

theorem writeByte_wf {m : Memory} (a : Nat) (v : Byte) (h : Memory.wf m = true) : Memory.wf (writeByte m a v) = true := by
  induction m with
  | nil => simp [writeByte, Memory.wf]
  | cons c m ih =>
    obtain ⟨b, u⟩ := c
    rw [memory_wf_cons] at h
    unfold writeByte
    split_ifs with h1 h2
    · rw [memory_wf_cons, memory_wf_cons]
      refine ⟨fun c hc => ?_, h⟩
      rcases List.mem_cons.1 hc with rfl | hc
      · exact h1
      · exact h1.trans (h.1 c hc)
    · subst h2; rw [memory_wf_cons]; exact h
    · rw [memory_wf_cons]
      refine ⟨fun c hc => ?_, ih h.2⟩
      rcases mem_writeByte hc with rfl | hc
      · simp only; omega
      · exact h.1 c hc

/-- A byte below every entry of a list reads as no value. -/
theorem readByte_none_of_lt {m : Memory} {a : Nat} (h : ∀ c ∈ m, a < c.1) : readByte m a = none := by
  induction m with
  | nil => rfl
  | cons c m ih =>
    obtain ⟨b, u⟩ := c
    simp only [List.mem_cons, forall_eq_or_imp] at h
    rw [readByte, if_neg (by omega), ih h.2]

/-- Canonical memories that read alike are equal data. -/
theorem memory_ext {m m' : Memory} (h : Memory.wf m = true) (h' : Memory.wf m' = true) (hr : ∀ a, readByte m a = readByte m' a) :
    m = m' := by
  induction m generalizing m' with
  | nil =>
    cases m' with
    | nil => rfl
    | cons c m' => have := hr c.1; simp [readByte] at this
  | cons c m ih =>
    obtain ⟨a, u⟩ := c
    cases m' with
    | nil => have := hr a; simp [readByte] at this
    | cons d m' =>
      obtain ⟨b, v⟩ := d
      rw [memory_wf_cons] at h h'
      have key : ∀ {k : Nat} {n : Memory}, (∀ c ∈ n, k < c.1) → ∀ j ≤ k, readByte n j = none :=
        fun hk j hj => readByte_none_of_lt fun c hc => hj.trans_lt (hk c hc)
      have hab : a = b := by
        rcases Nat.lt_trichotomy a b with hlt | heq | hgt
        · have := hr a
          simp [readByte, Nat.ne_of_gt hlt, key h'.1 a hlt.le] at this
        · exact heq
        · have := hr b
          simp [readByte, Nat.ne_of_gt hgt, key h.1 b hgt.le] at this
      subst hab
      have huv : u = v := by simpa [readByte] using hr a
      subst huv
      refine congrArg _ (ih h.2 h'.2 fun j => ?_)
      by_cases hj : a = j
      · subst hj; rw [key h.1 a le_rfl, key h'.1 a le_rfl]
      · simpa [readByte, hj] using hr j

/-! ### Several bytes -/

/-- What a byte reads as after bytes were written to consecutive addresses: everything `writeBytes` does. -/
theorem readByte_writeBytes (m : Memory) (a : Nat) (vs : List Byte) (b : Nat) :
    readByte (writeBytes m a vs) b = if a ≤ b ∧ b < a + vs.length then vs[b - a]? else readByte m b := by
  induction vs generalizing m a with
  | nil => simp [writeBytes, show ¬(a ≤ b ∧ b < a) by omega]
  | cons v vs ih =>
    rw [writeBytes, ih, readByte_writeByte]
    simp only [List.length_cons]
    by_cases h : a = b
    · subst h; simp
    · by_cases h2 : a ≤ b ∧ b < a + (vs.length + 1)
      · rw [if_pos (show a + 1 ≤ b ∧ b < a + 1 + vs.length by omega), if_pos h2,
          show b - a = (b - (a + 1)) + 1 by omega, List.getElem?_cons_succ]
      · rw [if_neg (show ¬(a + 1 ≤ b ∧ b < a + 1 + vs.length) by omega), if_neg h2, if_neg h]

theorem readByte_writeBytes_outside (m : Memory) {a : Nat} (vs : List Byte) {b : Nat} (h : b < a ∨ a + vs.length ≤ b) :
    readByte (writeBytes m a vs) b = readByte m b := by
  rw [readByte_writeBytes, if_neg (by omega)]

theorem readByte_writeBytes_inside (m : Memory) (a : Nat) (vs : List Byte) {k : Nat} (h : k < vs.length) :
    readByte (writeBytes m a vs) (a + k) = some vs[k] := by
  rw [readByte_writeBytes, if_pos (by omega), Nat.add_sub_cancel_left, List.getElem?_eq_getElem h]

theorem writeBytes_wf {m : Memory} (a : Nat) (vs : List Byte) (h : Memory.wf m = true) : Memory.wf (writeBytes m a vs) = true := by
  induction vs generalizing m a with
  | nil => exact h
  | cons v vs ih => exact ih _ (writeByte_wf a v h)

theorem mem_writeBytes {m : Memory} {a : Nat} {vs : List Byte} {c : Host.Cell} (h : c ∈ writeBytes m a vs) :
    (a ≤ c.1 ∧ c.1 < a + vs.length) ∨ c ∈ m := by
  induction vs generalizing m a with
  | nil => exact .inr h
  | cons v vs ih =>
    simp only [List.length_cons]
    rcases ih h with h | h
    · exact .inl (by omega)
    · rcases mem_writeByte h with rfl | h
      · exact .inl (by simp)
      · exact .inr h

/-! ### `MemWrite` -/

theorem memWrite_wf {m : Memory} (a n : Nat) (v : BitVec 32) (h : Memory.wf m = true) : Memory.wf (memWrite m a n v) = true :=
  writeBytes_wf _ _ h

theorem readByte_memWrite_inside (m : Memory) (a : Nat) {n k : Nat} (v : BitVec 32) (h : k < n) :
    readByte (memWrite m a n v) (a + k) = some (v.extractLsb' (8 * k) 8) := by
  rw [memWrite, readByte_writeBytes_inside _ _ _ (by simpa using h)]
  simp

theorem readByte_memWrite_outside (m : Memory) {a n b : Nat} (v : BitVec 32) (h : b < a ∨ a + n ≤ b) :
    readByte (memWrite m a n v) b = readByte m b :=
  readByte_writeBytes_outside _ _ (by simpa using h)

theorem mem_memWrite {m : Memory} {a n : Nat} {v : BitVec 32} {c : Host.Cell} (h : c ∈ memWrite m a n v) :
    (a ≤ c.1 ∧ c.1 < a + n) ∨ c ∈ m := by
  simpa using mem_writeBytes h

end Sys2Proof.Machine
end

