-- ==== Sys2Proof/Laws/State.lean ====
section
/-! SUPPORT. One lemma per field per update of the state: no later proof unfolds a record update. -/

namespace Sys2Proof.Machine

/-! ### `State.setImg` -/

@[simp] theorem State.setImg_img (s : State) (m : Memory) : (s.setImg m).img = m := rfl
@[simp] theorem State.setImg_flags (s : State) (m : Memory) : (s.setImg m).flags = s.flags := rfl
@[simp] theorem State.setImg_imgBytes (s : State) (m : Memory) : (s.setImg m).imgBytes = s.imgBytes := rfl
@[simp] theorem State.setImg_program (s : State) (m : Memory) : (s.setImg m).program = s.program := rfl
@[simp] theorem State.setImg_pc (s : State) (m : Memory) : (s.setImg m).pc = s.pc := rfl
@[simp] theorem State.setImg_responses (s : State) (m : Memory) : (s.setImg m).responses = s.responses := rfl
@[simp] theorem State.setImg_replies (s : State) (m : Memory) : (s.setImg m).replies = s.replies := rfl

/-! ### `State.setFlags` -/

@[simp] theorem State.setFlags_img (s : State) (f : BitVec 2) : (s.setFlags f).img = s.img := rfl
@[simp] theorem State.setFlags_flags (s : State) (f : BitVec 2) : (s.setFlags f).flags = f := rfl
@[simp] theorem State.setFlags_imgBytes (s : State) (f : BitVec 2) : (s.setFlags f).imgBytes = s.imgBytes := rfl
@[simp] theorem State.setFlags_program (s : State) (f : BitVec 2) : (s.setFlags f).program = s.program := rfl
@[simp] theorem State.setFlags_pc (s : State) (f : BitVec 2) : (s.setFlags f).pc = s.pc := rfl
@[simp] theorem State.setFlags_responses (s : State) (f : BitVec 2) : (s.setFlags f).responses = s.responses := rfl
@[simp] theorem State.setFlags_replies (s : State) (f : BitVec 2) : (s.setFlags f).replies = s.replies := rfl

/-! ### `State.advance` -/

@[simp] theorem State.advance_img (s : State) : (s.advance).img = s.img := rfl
@[simp] theorem State.advance_flags (s : State) : (s.advance).flags = s.flags := rfl
@[simp] theorem State.advance_imgBytes (s : State) : (s.advance).imgBytes = s.imgBytes := rfl
@[simp] theorem State.advance_program (s : State) : (s.advance).program = s.program := rfl
@[simp] theorem State.advance_pc (s : State) : (s.advance).pc = s.pc + 1 := rfl
@[simp] theorem State.advance_responses (s : State) : (s.advance).responses = s.responses := rfl
@[simp] theorem State.advance_replies (s : State) : (s.advance).replies = s.replies := rfl

/-! ### `State.respond` -/

@[simp] theorem State.respond_img (s : State) (st : Status) : (s.respond st).img = s.img := rfl
@[simp] theorem State.respond_flags (s : State) (st : Status) : (s.respond st).flags = s.flags := rfl
@[simp] theorem State.respond_imgBytes (s : State) (st : Status) : (s.respond st).imgBytes = s.imgBytes := rfl
@[simp] theorem State.respond_program (s : State) (st : Status) : (s.respond st).program = s.program := rfl
@[simp] theorem State.respond_pc (s : State) (st : Status) : (s.respond st).pc = s.pc + 1 := rfl
@[simp] theorem State.respond_responses (s : State) (st : Status) : (s.respond st).responses = s.responses ++ [st] := rfl
@[simp] theorem State.respond_replies (s : State) (st : Status) : (s.respond st).replies = s.replies := rfl

/-! ### `State.reply` -/

@[simp] theorem State.reply_img (s : State) (r : HostReply) : (s.reply r).img = s.img := rfl
@[simp] theorem State.reply_flags (s : State) (r : HostReply) : (s.reply r).flags = s.flags := rfl
@[simp] theorem State.reply_imgBytes (s : State) (r : HostReply) : (s.reply r).imgBytes = s.imgBytes := rfl
@[simp] theorem State.reply_program (s : State) (r : HostReply) : (s.reply r).program = s.program := rfl
@[simp] theorem State.reply_pc (s : State) (r : HostReply) : (s.reply r).pc = s.pc + 1 := rfl
@[simp] theorem State.reply_responses (s : State) (r : HostReply) : (s.reply r).responses = s.responses := rfl
@[simp] theorem State.reply_replies (s : State) (r : HostReply) : (s.reply r).replies = s.replies ++ [r] := rfl

/-! ### `State.raise` -/

@[simp] theorem State.raise_img (s : State) (e : Exc) : (s.raise e).img = s.img := rfl
@[simp] theorem State.raise_flags (s : State) (e : Exc) : (s.raise e).flags = s.flags := rfl
@[simp] theorem State.raise_imgBytes (s : State) (e : Exc) : (s.raise e).imgBytes = s.imgBytes := rfl
@[simp] theorem State.raise_program (s : State) (e : Exc) : (s.raise e).program = s.program := rfl
@[simp] theorem State.raise_pc (s : State) (e : Exc) : (s.raise e).pc = s.pc + 1 := rfl
@[simp] theorem State.raise_responses (s : State) (e : Exc) : (s.raise e).responses = s.responses ++ [excStatus e] := rfl
@[simp] theorem State.raise_replies (s : State) (e : Exc) : (s.raise e).replies = s.replies := rfl

/-! ### `State.completeBlock` -/

@[simp] theorem State.completeBlock_img (s : State) (l : Layout) (x y w : Coord) (px : Lane → Pixel) :
    (s.completeBlock l x y w px).img = writeBlock l x y w px s.img := rfl
@[simp] theorem State.completeBlock_flags (s : State) (l : Layout) (x y w : Coord) (px : Lane → Pixel) :
    (s.completeBlock l x y w px).flags = accumulateFlags s.flags fun p => (px p).alpha := rfl
@[simp] theorem State.completeBlock_imgBytes (s : State) (l : Layout) (x y w : Coord) (px : Lane → Pixel) :
    (s.completeBlock l x y w px).imgBytes = s.imgBytes := rfl
@[simp] theorem State.completeBlock_program (s : State) (l : Layout) (x y w : Coord) (px : Lane → Pixel) :
    (s.completeBlock l x y w px).program = s.program := rfl
@[simp] theorem State.completeBlock_pc (s : State) (l : Layout) (x y w : Coord) (px : Lane → Pixel) :
    (s.completeBlock l x y w px).pc = s.pc + 1 := rfl
@[simp] theorem State.completeBlock_responses (s : State) (l : Layout) (x y w : Coord) (px : Lane → Pixel) :
    (s.completeBlock l x y w px).responses = s.responses ++ [.ok] := rfl
@[simp] theorem State.completeBlock_replies (s : State) (l : Layout) (x y w : Coord) (px : Lane → Pixel) :
    (s.completeBlock l x y w px).replies = s.replies := rfl

/-! ### The cluster's views -/

@[simp] theorem Cluster.view_flags (c : Cluster) (p : Port) : (c.view p).flags = p.flags := rfl
@[simp] theorem portOf_flags (s : State) : (portOf s).flags = s.flags := rfl
@[simp] theorem Cluster.view_program (c : Cluster) (p : Port) : (c.view p).program = p.program := rfl
@[simp] theorem portOf_program (s : State) : (portOf s).program = s.program := rfl
@[simp] theorem Cluster.view_pc (c : Cluster) (p : Port) : (c.view p).pc = p.pc := rfl
@[simp] theorem portOf_pc (s : State) : (portOf s).pc = s.pc := rfl
@[simp] theorem Cluster.view_responses (c : Cluster) (p : Port) : (c.view p).responses = p.responses := rfl
@[simp] theorem portOf_responses (s : State) : (portOf s).responses = s.responses := rfl
@[simp] theorem Cluster.view_replies (c : Cluster) (p : Port) : (c.view p).replies = p.replies := rfl
@[simp] theorem portOf_replies (s : State) : (portOf s).replies = s.replies := rfl
@[simp] theorem Cluster.view_img (c : Cluster) (p : Port) : (c.view p).img = c.img := rfl
@[simp] theorem Cluster.view_imgBytes (c : Cluster) (p : Port) : (c.view p).imgBytes = c.imgBytes := rfl
@[simp] theorem Cluster.putBack_img (c : Cluster) (k : Nat) (s : State) : (c.putBack k s).img = s.img := rfl
@[simp] theorem Cluster.putBack_imgBytes (c : Cluster) (k : Nat) (s : State) : (c.putBack k s).imgBytes = c.imgBytes := rfl
@[simp] theorem Cluster.putBack_ports (c : Cluster) (k : Nat) (s : State) : (c.putBack k s).ports = c.ports.set k (portOf s) := rfl

end Sys2Proof.Machine
end

