-- ==== Sys2Proof/Laws/Block.lean ====
section
/-! SUPPORT. What writing the sixteen pixels does to `IMG`, and the one spec lemma of the shape all four commands share. -/

namespace Sys2Proof.Machine

@[simp] theorem bpp_rgb : bpp .rgb = 3 := rfl
@[simp] theorem bpp_rgba : bpp .rgba = 4 := rfl

theorem mem_lanes (p : Lane) : p ∈ lanes := by revert p; decide

theorem lanes_nodup : lanes.Nodup := by decide

/-! ### The pixel value's bytes, in memory order (R42) -/

@[simp] theorem pixelValue_byte0 (px : Pixel) : (pixelValue px).extractLsb' 0 8 = px.colour.r :=
  (extractLsb_append_low (px.alpha ++ px.colour.b ++ px.colour.g) px.colour.r (by decide)).trans BitVec.extractLsb'_eq_self

@[simp] theorem pixelValue_byte1 (px : Pixel) : (pixelValue px).extractLsb' 8 8 = px.colour.g :=
  (extractLsb_append_high (px.alpha ++ px.colour.b ++ px.colour.g) px.colour.r 0 8).trans <|
    (extractLsb_append_low (px.alpha ++ px.colour.b) px.colour.g (by decide)).trans BitVec.extractLsb'_eq_self

@[simp] theorem pixelValue_byte2 (px : Pixel) : (pixelValue px).extractLsb' 16 8 = px.colour.b :=
  (extractLsb_append_high (px.alpha ++ px.colour.b ++ px.colour.g) px.colour.r 8 8).trans <|
    (extractLsb_append_high (px.alpha ++ px.colour.b) px.colour.g 0 8).trans <|
      (extractLsb_append_low px.alpha px.colour.b (by decide)).trans BitVec.extractLsb'_eq_self

@[simp] theorem pixelValue_byte3 (px : Pixel) : (pixelValue px).extractLsb' 24 8 = px.alpha :=
  (extractLsb_append_high (px.alpha ++ px.colour.b ++ px.colour.g) px.colour.r 16 8).trans <|
    (extractLsb_append_high (px.alpha ++ px.colour.b) px.colour.g 8 8).trans <|
      (extractLsb_append_high px.alpha px.colour.b 0 8).trans BitVec.extractLsb'_eq_self

/-! ### The footprint's addresses -/

/-- The addresses a footprint stores to: byte `k < BPP` of some pixel. -/
theorem mem_footprintAddrs {l : Layout} {x y w : Coord} {a : Nat} :
    a ∈ footprintAddrs l x y w ↔ ∃ (p : Lane) (k : Nat), k < bpp l ∧ a = pixelAddr x y w (bpp l) p + k := by
  simp only [footprintAddrs, List.mem_flatMap, mem_lanes, true_and, List.mem_map, List.mem_range]
  constructor
  · rintro ⟨p, k, hk, rfl⟩; exact ⟨p, k, hk, rfl⟩
  · rintro ⟨p, k, hk, rfl⟩; exact ⟨p, k, hk, rfl⟩

/-! ### `writeBlock` -/

/-- Writing some of the lanes, for the inductions below. -/
theorem foldl_writePixel_wf (l : Layout) (x y w : Coord) (px : Lane → Pixel) (ps : List Lane) {m : Memory}
    (h : Memory.wf m = true) : Memory.wf (ps.foldl (writePixel l x y w px) m) = true := by
  induction ps generalizing m with
  | nil => exact h
  | cons p ps ih => exact ih (memWrite_wf _ _ _ h)

theorem foldl_writePixel_outside (l : Layout) (x y w : Coord) (px : Lane → Pixel) (ps : List Lane) (m : Memory) {a : Nat}
    (h : ∀ p ∈ ps, a < pixelAddr x y w (bpp l) p ∨ pixelAddr x y w (bpp l) p + bpp l ≤ a) :
    readByte (ps.foldl (writePixel l x y w px) m) a = readByte m a := by
  induction ps generalizing m with
  | nil => rfl
  | cons p ps ih =>
    rw [List.foldl_cons, ih _ fun q hq => h q (List.mem_cons_of_mem _ hq)]
    exact readByte_memWrite_outside _ _ (h p List.mem_cons_self)

theorem mem_foldl_writePixel (l : Layout) (x y w : Coord) (px : Lane → Pixel) (ps : List Lane) {m : Memory} {c : Host.Cell}
    (h : c ∈ ps.foldl (writePixel l x y w px) m) :
    (∃ p ∈ ps, pixelAddr x y w (bpp l) p ≤ c.1 ∧ c.1 < pixelAddr x y w (bpp l) p + bpp l) ∨ c ∈ m := by
  induction ps generalizing m with
  | nil => exact .inr h
  | cons p ps ih =>
    rcases ih h with ⟨q, hq, hc⟩ | h
    · exact .inl ⟨q, List.mem_cons_of_mem _ hq, hc⟩
    · rcases mem_memWrite h with hc | h
      · exact .inl ⟨p, List.mem_cons_self, hc⟩
      · exact .inr h

/-- Writing a block keeps the canonical form. -/
theorem writeBlock_wf (l : Layout) (x y w : Coord) (px : Lane → Pixel) {m : Memory} (h : Memory.wf m = true) :
    Memory.wf (writeBlock l x y w px m) = true :=
  foldl_writePixel_wf l x y w px lanes h

/-- Outside the footprint a block leaves every byte. -/
theorem readByte_writeBlock_outside (l : Layout) (x y w : Coord) (px : Lane → Pixel) (m : Memory) {a : Nat}
    (h : a ∉ footprintAddrs l x y w) : readByte (writeBlock l x y w px m) a = readByte m a := by
  refine foldl_writePixel_outside l x y w px lanes m fun p _ => ?_
  by_contra hc
  push Not at hc
  exact h (mem_footprintAddrs.2 ⟨p, a - pixelAddr x y w (bpp l) p, by omega, by omega⟩)

/-- An entry of the written memory is an old one or lies in the footprint. -/
theorem mem_writeBlock {l : Layout} {x y w : Coord} {px : Lane → Pixel} {m : Memory} {c : Host.Cell}
    (h : c ∈ writeBlock l x y w px m) : c.1 ∈ footprintAddrs l x y w ∨ c ∈ m := by
  rcases mem_foldl_writePixel l x y w px lanes h with ⟨p, -, h1, h2⟩ | h
  · exact .inl (mem_footprintAddrs.2 ⟨p, c.1 - pixelAddr x y w (bpp l) p, by omega, by omega⟩)
  · exact .inr h

/-- A pixel's byte in a memory to which lanes were written, where the pixels' bytes do not overlap. -/
theorem foldl_writePixel_inside (l : Layout) (x y w : Coord) (px : Lane → Pixel) (ps : List Lane) (m : Memory) {p : Lane} {k : Nat}
    (hk : k < bpp l) (hp : p ∈ ps) (hn : ps.Nodup)
    (hd : ∀ q, q ≠ p → pixelAddr x y w (bpp l) p + k < pixelAddr x y w (bpp l) q ∨
      pixelAddr x y w (bpp l) q + bpp l ≤ pixelAddr x y w (bpp l) p + k) :
    readByte (ps.foldl (writePixel l x y w px) m) (pixelAddr x y w (bpp l) p + k)
      = some ((pixelValue (px p)).extractLsb' (8 * k) 8) := by
  induction ps generalizing m with
  | nil => cases hp
  | cons q ps ih =>
    rw [List.foldl_cons]
    rw [List.nodup_cons] at hn
    rcases List.mem_cons.1 hp with rfl | hp
    · rw [foldl_writePixel_outside _ _ _ _ _ _ _ fun q hq => hd q fun e => hn.1 (e ▸ hq)]
      exact readByte_memWrite_inside _ _ _ hk
    · exact ih _ hp hn.2

/-- Byte `k` of pixel `p` after the block is written, where the pixels' bytes do not overlap (R52 gives that under the check). -/
theorem readByte_writeBlock_inside (l : Layout) (x y w : Coord) (px : Lane → Pixel) (m : Memory) {p : Lane} {k : Nat}
    (hk : k < bpp l)
    (hd : ∀ q, q ≠ p → pixelAddr x y w (bpp l) p + k < pixelAddr x y w (bpp l) q ∨
      pixelAddr x y w (bpp l) q + bpp l ≤ pixelAddr x y w (bpp l) p + k) :
    readByte (writeBlock l x y w px m) (pixelAddr x y w (bpp l) p + k) = some ((pixelValue (px p)).extractLsb' (8 * k) 8) :=
  foldl_writePixel_inside l x y w px lanes m hk (mem_lanes p) lanes_nodup hd

/-! ### The footprint check and `decodeBlock` -/

/-- The check passes exactly when neither of its tests holds (R171). -/
theorem footprintOk_iff {n : Nat} {x y w : Coord} {b : Nat} :
    footprintOk n x y w b = true ↔ x.toNat + 4 ≤ w.toNat ∧ ((y.toNat + 3) * w.toNat + (x.toNat + 3)) * b + b ≤ n := by
  simp [footprintOk]

theorem decodeBlock_fits {l : Layout} {x y w : Coord} (px : Lane → Pixel) {s : State}
    (h : footprintOk s.imgBytes x y w (bpp l) = true) : decodeBlock l x y w px s = s.completeBlock l x y w px := by
  simp [decodeBlock, h]

theorem decodeBlock_outOfBounds {l : Layout} {x y w : Coord} (px : Lane → Pixel) {s : State}
    (h : footprintOk s.imgBytes x y w (bpp l) = false) : decodeBlock l x y w px s = s.raise .footprintOutOfBounds := by
  simp [decodeBlock, h]

/-- Everything `decodeBlock` can do: the whole block, or the exception. -/
theorem decodeBlock_cases (l : Layout) (x y w : Coord) (px : Lane → Pixel) (s : State) :
    (footprintOk s.imgBytes x y w (bpp l) = true ∧ decodeBlock l x y w px s = s.completeBlock l x y w px) ∨
    (footprintOk s.imgBytes x y w (bpp l) = false ∧ decodeBlock l x y w px s = s.raise .footprintOutOfBounds) := by
  cases h : footprintOk s.imgBytes x y w (bpp l)
  · exact .inr ⟨rfl, decodeBlock_outOfBounds px h⟩
  · exact .inl ⟨rfl, decodeBlock_fits px h⟩

end Sys2Proof.Machine
end

