-- ==== Sys2Proof/Laws/Datapath.lean ====
section
/-! SUPPORT. Spec lemmas of the datapath functions: what the ramps, the palette, the colour core and the block flags give. -/

namespace Sys2Proof.Machine

/-- A weighted mean of two bytes is computed exactly: storing it in 8 bits loses nothing (R118). -/
theorem weighted_toNat {wa wb d : Nat} (a b : Byte) (hd : 0 < d) (h : wa + wb ≤ d) :
    (weighted wa wb d a b).toNat = (wa * a.toNat + wb * b.toNat) / d := by
  have ha : wa * a.toNat ≤ wa * 255 := Nat.mul_le_mul_left _ (by omega)
  have hb : wb * b.toNat ≤ wb * 255 := Nat.mul_le_mul_left _ (by omega)
  have hq : (wa * a.toNat + wb * b.toNat) / d < 256 := by
    rw [Nat.div_lt_iff_lt_mul hd]
    nlinarith
  simp only [weighted, BitVec.toNat_ofNat]
  exact Nat.mod_eq_of_lt (by simpa using hq)

/-! ### The palette -/

theorem fourColours_eq_true {c0 c1 : Packed565} {f : Bool} :
    fourColours c0 c1 f = true ↔ f = true ∨ c1.toNat < c0.toNat := by simp [fourColours]

theorem palette4_four (cfg : Config) {c0 c1 : Packed565} {f : Bool} (h : fourColours c0 c1 f = true) :
    palette4 cfg c0 c1 f = ⟨expand565 cfg c0, expand565 cfg c1, weightedRgb 2 1 3 (expand565 cfg c0) (expand565 cfg c1),
      some (weightedRgb 1 2 3 (expand565 cfg c0) (expand565 cfg c1))⟩ := by simp [palette4, h]

theorem palette4_three (cfg : Config) {c0 c1 : Packed565} {f : Bool} (h : fourColours c0 c1 f = false) :
    palette4 cfg c0 c1 f = ⟨expand565 cfg c0, expand565 cfg c1, weightedRgb 1 1 2 (expand565 cfg c0) (expand565 cfg c1), none⟩ := by
  simp [palette4, h]

/-- A slot has no value exactly where it is slot 3 and that slot is special. -/
theorem pick_eq_none_iff (P : Palette) (i : BitVec 2) : P.pick i = none ↔ P.special = true ∧ i = 3 := by
  have hi : i = 0 ∨ i = 1 ∨ i = 2 ∨ i = 3 := by revert i; decide
  rcases hi with rfl | rfl | rfl | rfl <;> simp [Palette.pick, Palette.special]

/-- The ramp forced to four colours has a value in every slot (R108). -/
theorem pick_forced (cfg : Config) (c0 c1 : Packed565) (i : BitVec 2) : (palette4 cfg c0 c1 true).pick i ≠ none := by
  rw [ne_eq, pick_eq_none_iff, palette4_four cfg (by simp [fourColours])]
  simp [Palette.special]

/-! ### The colour core -/

theorem c1core_rgb (cfg : Config) (cb : BitVec 64) (alpha : Lane → Byte) (subst : Bool) (p : Lane) :
    c1core cfg cb alpha .rgb subst p =
      ⟨((palette4 cfg (ref0 cb) (ref1 cb) false).pick (colourIndex cfg cb p)).getD black, 255⟩ := by
  cases h : (palette4 cfg (ref0 cb) (ref1 cb) false).pick (colourIndex cfg cb p) <;> simp [c1core, h]

theorem c1core_rgba (cfg : Config) (cb : BitVec 64) (alpha : Lane → Byte) (subst : Bool) (p : Lane) :
    c1core cfg cb alpha .rgba subst p =
      ⟨((palette4 cfg (ref0 cb) (ref1 cb) false).pick (colourIndex cfg cb p)).getD cfg.slot3,
        if (palette4 cfg (ref0 cb) (ref1 cb) false).pick (colourIndex cfg cb p) = none ∧ subst = true then 0 else alpha p⟩ := by
  cases h : (palette4 cfg (ref0 cb) (ref1 cb) false).pick (colourIndex cfg cb p) <;> simp [c1core, h]

/-! ### The block flags -/

theorem ftBlk_eq_true {ea : Lane → Byte} : ftBlk ea = true ↔ ∃ p, (ea p).toNat = 0 := by
  have hl : ∀ p : Lane, p ∈ lanes := by decide
  simp only [ftBlk, List.any_eq_true, decide_eq_true_eq, hl, true_and]

theorem ptBlk_eq_true {ea : Lane → Byte} : ptBlk ea = true ↔ ∃ p, 0 < (ea p).toNat ∧ (ea p).toNat < 255 := by
  have hl : ∀ p : Lane, p ∈ lanes := by decide
  simp only [ptBlk, List.any_eq_true, decide_eq_true_eq, hl, true_and]

@[simp] theorem flagFT_accumulateFlags (f : BitVec 2) (ea : Lane → Byte) :
    flagFT (accumulateFlags f ea) = (flagFT f || ftBlk ea) := by
  unfold flagFT accumulateFlags flagsOf
  generalize ftBlk ea = x; generalize ptBlk ea = y
  revert f x y; decide

@[simp] theorem flagPT_accumulateFlags (f : BitVec 2) (ea : Lane → Byte) :
    flagPT (accumulateFlags f ea) = (flagPT f || ptBlk ea) := by
  unfold flagPT accumulateFlags flagsOf
  generalize ftBlk ea = x; generalize ptBlk ea = y
  revert f x y; decide

/-- `FLAGS` is its two bits. -/
theorem flags_ext {f g : BitVec 2} (h0 : flagFT f = flagFT g) (h1 : flagPT f = flagPT g) : f = g := by
  revert f g; decide

end Sys2Proof.Machine
end

