-- ==== Sys2Proof/Laws/Step.lean ====
section
/-! SUPPORT. What a command, a host action and a step can do, said once. -/

namespace Sys2Proof.Machine

/-- Every command is the one shared shape over its own lanes. -/
theorem exec_eq (i : Instr) (s : State) :
    exec i s = .next (decodeBlock (layoutOf i) (xOf i) (yOf i) (wOf i) (lanesOf i) s) := by
  cases i <;> rfl

theorem exec_fits {i : Instr} {s : State} (h : commandFits s.imgBytes i = true) :
    exec i s = .next (s.completeBlock (layoutOf i) (xOf i) (yOf i) (wOf i) (lanesOf i)) := by
  rw [exec_eq, decodeBlock_fits _ h]

theorem exec_outOfBounds {i : Instr} {s : State} (h : commandFits s.imgBytes i = false) :
    exec i s = .next (s.raise .footprintOutOfBounds) := by
  rw [exec_eq, decodeBlock_outOfBounds _ h]

/-- Everything a command can do: complete, or raise `FootprintOutOfBounds`. -/
theorem exec_cases {i : Instr} {s t : State} (h : exec i s = .next t) :
    (commandFits s.imgBytes i = true ∧ t = s.completeBlock (layoutOf i) (xOf i) (yOf i) (wOf i) (lanesOf i)) ∨
    (commandFits s.imgBytes i = false ∧ t = s.raise .footprintOutOfBounds) := by
  cases hf : commandFits s.imgBytes i
  · rw [exec_outOfBounds hf] at h
    exact .inr ⟨rfl, (Host.Outcome.next.inj h).symm⟩
  · rw [exec_fits hf] at h
    exact .inl ⟨rfl, (Host.Outcome.next.inj h).symm⟩

theorem performCommand_ok {w : CmdWord} {i : Instr} (h : decodeWord w = .ok i) (s : State) : performCommand w s = exec i s := by
  simp [performCommand, h]

theorem performCommand_error {w : CmdWord} {e : DecodeError} (h : decodeWord w = .error e) (s : State) :
    performCommand w s = .next (s.raise .illegalCommand) := by
  simp [performCommand, h]

/-- Everything a command word can do. -/
theorem performCommand_cases {w : CmdWord} {s t : State} (h : performCommand w s = .next t) :
    (∃ i, decodeWord w = .ok i ∧ exec i s = .next t) ∨ (∃ e, decodeWord w = .error e ∧ t = s.raise .illegalCommand) := by
  cases hd : decodeWord w with
  | ok i => exact .inl ⟨i, rfl, by rwa [performCommand_ok hd] at h⟩
  | error e =>
    rw [performCommand_error hd] at h
    exact .inr ⟨e, rfl, (Host.Outcome.next.inj h).symm⟩

theorem hostWrite_cases {a : Nat} {bs : List Byte} {s t : State} (h : hostWrite a bs s = .next t) :
    a + bs.length ≤ s.imgBytes ∧ t = (s.setImg (writeBytes s.img a bs)).advance := by
  unfold hostWrite rangeInside at h
  split_ifs at h with hr
  exact ⟨by simpa using hr, (Host.Outcome.next.inj h).symm⟩

theorem hostRead_cases {a n : Nat} {s t : State} (h : hostRead a n s = .next t) :
    a + n ≤ s.imgBytes ∧ t = s.reply (.bytes (memRead s.img a n)) := by
  unfold hostRead rangeInside at h
  split_ifs at h with hr
  exact ⟨by simpa using hr, (Host.Outcome.next.inj h).symm⟩

/-- What an action of the host's list does when it answers a next state. -/
inductive ActionEffect (s : State) : HostAction → State → Prop where
  | complete (w : CmdWord) (i : Instr) (hd : decodeWord w = .ok i) (hf : commandFits s.imgBytes i = true) :
      ActionEffect s (.command w) (s.completeBlock (layoutOf i) (xOf i) (yOf i) (wOf i) (lanesOf i))
  | outOfBounds (w : CmdWord) (i : Instr) (hd : decodeWord w = .ok i) (hf : commandFits s.imgBytes i = false) :
      ActionEffect s (.command w) (s.raise .footprintOutOfBounds)
  | illegal (w : CmdWord) (e : DecodeError) (hd : decodeWord w = .error e) : ActionEffect s (.command w) (s.raise .illegalCommand)
  | wrflags (v : BitVec 2) : ActionEffect s (.wrflags v) (s.setFlags v).advance
  | rdflags : ActionEffect s .rdflags (s.reply (.flags s.flags))
  | read (a n : Nat) (h : a + n ≤ s.imgBytes) : ActionEffect s (.read a n) (s.reply (.bytes (memRead s.img a n)))
  | fill (a n : Nat) (v : Byte) (h : a + n ≤ s.imgBytes) :
      ActionEffect s (.fill a n v) (s.setImg (writeBytes s.img a (List.replicate n v))).advance
  | write (a : Nat) (bs : List Byte) (h : a + bs.length ≤ s.imgBytes) :
      ActionEffect s (.write a bs) (s.setImg (writeBytes s.img a bs)).advance
  | reset : ActionEffect s .reset (s.setFlags 0).advance

/-- Everything an action can do. -/
theorem performAction_effect {a : HostAction} {s t : State} (h : performAction a s = .next t) : ActionEffect s a t := by
  cases a with
  | command w =>
    rcases performCommand_cases h with ⟨i, hd, hx⟩ | ⟨e, hd, rfl⟩
    · rcases exec_cases hx with ⟨hf, rfl⟩ | ⟨hf, rfl⟩
      · exact .complete w i hd hf
      · exact .outOfBounds w i hd hf
    · exact .illegal w e hd
  | wrflags v => cases h; exact .wrflags v
  | rdflags => cases h; exact .rdflags
  | read a n => obtain ⟨hr, rfl⟩ := hostRead_cases h; exact .read a n hr
  | fill a n v => obtain ⟨hr, rfl⟩ := hostWrite_cases h; exact .fill a n v (by simpa using hr)
  | write a bs => obtain ⟨hr, rfl⟩ := hostWrite_cases h; exact .write a bs hr
  | reset => cases h; exact .reset

/-- Everything a step can do: the run has ended and nothing changes, or the action at `pc` has its effect. -/
theorem step_cases {s t : State} (h : step s = .next t) :
    (nextAction s = none ∧ t = s) ∨ ∃ a, nextAction s = some a ∧ ActionEffect s a t := by
  unfold step at h
  cases ha : nextAction s with
  | none => rw [ha] at h; exact .inl ⟨rfl, (Host.Outcome.next.inj h).symm⟩
  | some a => rw [ha] at h; exact .inr ⟨a, rfl, performAction_effect h⟩

theorem step_command {s : State} {w : CmdWord} (h : nextAction s = some (.command w)) : step s = performCommand w s := by
  simp [step, h, performAction]

end Sys2Proof.Machine
end

