-- ==== Sys2Proof/Laws/Instances.lean ====
section
/-! SUPPORT. What one instance's step, a sequence of them and a launch can do, said once. -/

namespace Sys2Proof.Machine

/-- Everything an instance's step can do when it answers a next state: there is such an instance, and it makes a step of its own. -/
theorem Cluster.stepInstance_cases {c c' : Cluster} {k : Nat} (h : c.stepInstance k = .next c') :
    ∃ p s, c.ports[k]? = some p ∧ step (c.view p) = .next s ∧ c' = c.putBack k s := by
  unfold Cluster.stepInstance at h
  split at h
  · cases h
  · rename_i p hp
    split at h
    · rename_i s hs
      exact ⟨p, s, hp, hs, (Host.Outcome.next.inj h).symm⟩
    · cases h
    · cases h

/-- A launch that answers a next state: no instance twice, no conflict, and the instances perform their actions in the order listed. -/
theorem Cluster.launch_cases {c c' : Cluster} {ks : List Nat} (h : c.launch ks = .next c') :
    ks.Nodup ∧ anyConflict c.imgBytes (ks.filterMap c.actionOf) = false ∧ Cluster.stepAll ks c = .next c' := by
  unfold Cluster.launch at h
  split_ifs at h with hn hc
  exact ⟨hn, by simpa using hc, h⟩

/-- What every instance's step keeps, a sequence of them keeps. -/
theorem Cluster.stepAll_keeps {Keeps : Cluster → Prop} (hk : ∀ k c c', Keeps c → c.stepInstance k = .next c' → Keeps c') :
    ∀ (ks : List Nat) {c c' : Cluster}, Keeps c → Cluster.stepAll ks c = .next c' → Keeps c'
  | [], _, _, hc, h => by cases h; exact hc
  | k :: ks, _, _, hc, h => by
    unfold Cluster.stepAll at h
    split at h
    · rename_i c₁ h₁
      exact Cluster.stepAll_keeps hk ks (hk k _ c₁ hc h₁) h
    · cases h
    · cases h

/-- An instance whose list has ended steps to the cluster as it is. -/
theorem Cluster.stepInstance_ended {c : Cluster} {k : Nat} {p : Port} (hp : c.ports[k]? = some p) (he : (c.view p).RunEnded) :
    c.stepInstance k = .next c := by
  have hs : step (c.view p) = .next (c.view p) := by unfold step; rw [he]
  have hset : c.ports.set k p = c.ports := by
    obtain ⟨hk, rfl⟩ := List.getElem?_eq_some_iff.1 hp
    exact List.set_getElem_self hk
  have hback : c.putBack k (c.view p) = c := by
    unfold Cluster.putBack
    rw [show portOf (c.view p) = p from rfl, hset]
    rfl
  simp [Cluster.stepInstance, hp, hs, hback]

end Sys2Proof.Machine
end

