-- ==== Sys2Proof/Laws/PerInstr.lean ====
section
/-! SUPPORT. Statements about every command, one lemma per constructor. -/

namespace Sys2Proof.Laws.ReservedZero

/-- The encoder leaves the reserved field `RSV` zero (R83, R85). -/
def Statement (i : Instr) : Prop := cmdRsv (encode i) = 0

theorem rsv_packWord (rsv : BitVec 13) (tm : BitVec 1) (var : BitVec 2) (w y x : Coord) (block : BitVec 128) :
    cmdRsv (packWord rsv tm var w y x block) = rsv :=
  (extractLsb_append_high (rsv ++ tm ++ var ++ w ++ y ++ x) block 51 13).trans <|
    (extractLsb_append_high (rsv ++ tm ++ var ++ w ++ y) x 35 13).trans <|
      (extractLsb_append_high (rsv ++ tm ++ var ++ w) y 19 13).trans <|
        (extractLsb_append_high (rsv ++ tm ++ var) w 3 13).trans <|
          (extractLsb_append_high (rsv ++ tm) var 1 13).trans <|
            (extractLsb_append_high rsv tm 0 13).trans BitVec.extractLsb'_eq_self

theorem decRgb (x y w : Coord) (blk : BitVec 64) : Statement (.decRgb x y w blk) := rsv_packWord _ _ _ _ _ _ _

theorem decA1 (x y w : Coord) (blk : BitVec 64) : Statement (.decA1 x y w blk) := rsv_packWord _ _ _ _ _ _ _

theorem decA4 (x y w : Coord) (blk : BitVec 128) : Statement (.decA4 x y w blk) := rsv_packWord _ _ _ _ _ _ _

theorem decA8 (x y w : Coord) (blk : BitVec 128) : Statement (.decA8 x y w blk) := rsv_packWord _ _ _ _ _ _ _

end Sys2Proof.Laws.ReservedZero
end

