-- ==== Sys2Proof/Tests/Slice0.lean ====
section
/-! SUPPORT. The model's own tests. Every expected value is one of 95_test_vectors.md or is read off a rule's example; the witnesses show a
concrete state and operands that meet the hypotheses of each statement. -/

namespace Sys2Proof.Tests

open Sys2Proof Sys2Proof.Machine

/-- One command word in the host's list over an `IMG` of `n` bytes that nothing has written. -/
def oneCommand (n : Nat) (w : CmdWord) : State := { State.reset with imgBytes := n, program := [.command w] }

/-- The next state an outcome holds. -/
def nextOf (o : Host.Outcome State Fault Refusal) : Option State :=
  match o with
  | .next t => some t
  | .fault _ => none
  | .refused _ => none

/-- Bytes `a .. a+n-1` of `IMG` after one step. -/
def bytesAfter (s : State) (a n : Nat) : Option (List (Option Byte)) := (nextOf (step s)).map fun t => memRead t.img a n

/-- `FLAGS` and the response codes after one step. -/
def answerAfter (s : State) : Option (BitVec 2 × List (BitVec 2)) :=
  (nextOf (step s)).map fun t => (t.flags, t.responses.map statusCode)

/-! ### WellFormed: an ill-formed line for each check (R85, U2) -/

theorem test_wellFormed : (AsmLine.decRgb 65535 0 4 [0, 0, 0, 0, 0, 0, 0, 0]).wellFormed = true := by decide

theorem test_illFormed_x : (AsmLine.decRgb 65536 0 4 [0, 0, 0, 0, 0, 0, 0, 0]).wellFormed = false := by decide

theorem test_illFormed_y : (AsmLine.decA1 0 65536 4 [0, 0, 0, 0, 0, 0, 0, 0]).wellFormed = false := by decide

theorem test_illFormed_w : (AsmLine.decC1 true 0 0 65536 [0, 0, 0, 0, 0, 0, 0, 0]).wellFormed = false := by decide

theorem test_illFormed_short_block : (AsmLine.decRgb 0 0 4 [0, 0, 0, 0, 0, 0, 0]).wellFormed = false := by decide

theorem test_illFormed_block_of_8 : (AsmLine.decA4 0 0 4 [0, 0, 0, 0, 0, 0, 0, 0]).wellFormed = false := by decide

theorem test_illFormed_no_block : (AsmLine.decA8 0 0 4 []).wellFormed = false := by decide

/-! ### Decoding: words built field by field from R71 -/

/-- `RSV` all ones (ignored), `TM = 0`, `VAR = 00`, `W = 8`, `Y = 3`, `X = 5`, `BLOCK[127:64]` non-zero (ignored), block bytes
`00 F8 1F 00 00 55 AA FF`. -/
theorem test_decode_decRgb :
    decodeWord (0b1111111111111#13 ++ 0b0#1 ++ 0b00#2 ++ 8#16 ++ 3#16 ++ 5#16 ++ 0xDEADBEEFCAFEF00D#64 ++ 0xFFAA5500001FF800#64)
      = .ok (.decRgb 5 3 8 0xFFAA5500001FF800) := rfl

/-- `TM = 1`, `VAR = 00`. -/
theorem test_decode_decA1 :
    decodeWord (0b0000000000000#13 ++ 0b1#1 ++ 0b00#2 ++ 8#16 ++ 3#16 ++ 5#16 ++ 0#64 ++ 0xE4E4E4E4F800001F#64)
      = .ok (.decA1 5 3 8 0xE4E4E4E4F800001F) := rfl

/-- `VAR = 01`, `TM = 1` (ignored). -/
theorem test_decode_decA4 :
    decodeWord (0b0000000000000#13 ++ 0b1#1 ++ 0b01#2 ++ 4#16 ++ 1#16 ++ 2#16 ++ 0xE4E4E4E4F800001F#64 ++ 0xFEDCBA9876543210#64)
      = .ok (.decA4 2 1 4 0xE4E4E4E4F800001FFEDCBA9876543210) := rfl

/-- `VAR = 10`, as the 24 bytes of R70, least significant first, one byte more following. -/
theorem test_decode_decA8 :
    decodeBytes [0xFF, 0x00, 0x88, 0xC6, 0xFA, 0x88, 0xC6, 0xFA, 0x1F, 0x00, 0x00, 0xF8, 0xE4, 0xE4, 0xE4, 0xE4,
        0x04, 0x00, 0x00, 0x00, 0x08, 0x00, 0x02, 0x00, 0x77]
      = .ok (.decA8 4 0 8 0xE4E4E4E4F800001FFAC688FAC68800FF, [0x77]) := rfl

/-- `VAR = 11` (R82), whatever `TM`. -/
theorem test_decode_reserved : decodeWord 0x000700000000000000000000000000000000000000000000 = .error .reservedVariant := rfl

theorem test_decode_truncated : decodeBytes [0, 0, 0] = .error .truncated := rfl

/-- R85: the word of S3's `dec.a8` listing from its fields, and as its 48 digits. -/
theorem test_listing :
    String.ofList (listing (encode (.decA8 0 0 4 0xE4E4E4E4FFFF0000000000000000FFFF)))
      = "0002000400000000E4E4E4E4FFFF0000000000000000FFFF" := by decide

/-- R85: `dec.a1 0, 0, 4, [34 12 34 12 E4 E4 E4 FF]` (S7). -/
theorem test_assemble :
    assembleWord (.decC1 true 0 0 4 [0x34, 0x12, 0x34, 0x12, 0xE4, 0xE4, 0xE4, 0xFF])
      = some 0x00040004000000000000000000000000FFE4E4E412341234 := by decide

/-! ### The commands: at most two each (95_test_vectors.md) -/

/-- S2, first pair: every row `AD 79 6B | 10 45 A5 | 78 67 7E | 44 56 91`. -/
theorem test_decRgb_four_colours :
    bytesAfter (oneCommand 48 0x00000004000000000000000000000000E4E4E4E41234ABCD) 36 12
      = some [some 0xAD, some 0x79, some 0x6B, some 0x10, some 0x45, some 0xA5, some 0x78, some 0x67, some 0x7E, some 0x44,
          some 0x56, some 0x91] := by decide

/-- V6h: every row `00 00 FF | FF 00 00 | 7F 00 7F | 00 00 00`: the midpoint floors, the special slot is black. -/
theorem test_decRgb_special_slot :
    bytesAfter (oneCommand 48 0x00000004000000000000000000000000E4E4E4E4F800001F) 0 12
      = some [some 0x00, some 0x00, some 0xFF, some 0xFF, some 0x00, some 0x00, some 0x7F, some 0x00, some 0x7F, some 0x00,
          some 0x00, some 0x00] := by decide

/-- S7: equal references; row 0 is `10 45 A5 FF` three times and `00 00 00 00`. -/
theorem test_decA1_equal_references :
    bytesAfter (oneCommand 64 0x00040004000000000000000000000000FFE4E4E412341234) 8 8
      = some [some 0x10, some 0x45, some 0xA5, some 0xFF, some 0x00, some 0x00, some 0x00, some 0x00] := by decide

/-- S7: `FLAGS = 0b01`, status 0. -/
theorem test_decA1_sets_FT :
    answerAfter (oneCommand 64 0x00040004000000000000000000000000FFE4E4E412341234) = some (0b01, [0]) := by decide

/-- V6a: row 3 is `00 00 FF CC | FF 00 00 DD | 7F 00 7F EE | 00 00 00 FF`. -/
theorem test_decA4_all_alphas :
    bytesAfter (oneCommand 64 0x0001000400000000E4E4E4E4F800001FFEDCBA9876543210) 48 16
      = some [some 0x00, some 0x00, some 0xFF, some 0xCC, some 0xFF, some 0x00, some 0x00, some 0xDD, some 0x7F, some 0x00,
          some 0x7F, some 0xEE, some 0x00, some 0x00, some 0x00, some 0xFF] := by decide

/-- V6d: the special slot everywhere with opaque alpha leaves `FLAGS`. -/
theorem test_decA4_special_slot_keeps_alpha :
    answerAfter (oneCommand 64 0x0001000400000000FFFFFFFFF800001FFFFFFFFFFFFFFFFF) = some (0b00, [0]) := by decide

/-- V6k: row 1 is `00 00 FF 91 | FF 00 00 6D | 55 00 AA 48 | AA 00 55 24`. -/
theorem test_decA8_eight_levels :
    bytesAfter (oneCommand 64 0x0002000400000000E4E4E4E4F800001FFAC688FAC68800FF) 16 16
      = some [some 0x00, some 0x00, some 0xFF, some 0x91, some 0xFF, some 0x00, some 0x00, some 0x6D, some 0x55, some 0x00,
          some 0xAA, some 0x48, some 0xAA, some 0x00, some 0x55, some 0x24] := by decide

/-- V6n: the two sentinels only: `FT` and not `PT`, although both endpoints are 128. -/
theorem test_decA8_sentinels :
    answerAfter (oneCommand 64 0x00020004000000000000000000000000FBEFBEFBEFBE8080) = some (0b01, [0]) := by decide

/-! ### Exceptions (V7) -/

theorem test_one_byte_short : answerAfter (oneCommand 47 0x00000004000000000000000000000000E4E4E4E4001FF800) = some (0, [2]) := by decide

theorem test_x_does_not_wrap :
    answerAfter (oneCommand 1000 0x0004FFFF0000FFFF0000000000000000E4E4E4E4001FF800) = some (0, [2]) := by decide

theorem test_reserved_variant : answerAfter (oneCommand 64 0x000700000000000000000000000000000000000000000000) = some (0, [1]) := by decide

/-- The command placed where the next step takes its action is the one that step performs. -/
theorem test_withFetchWord :
    answerAfter (State.reset.withFetchWord 192 0x00040004000000000000000000000000FFE4E4E412341234) = some (0b01, [0]) := by decide

theorem test_decodeTableWord :
    decodeTableWord 192 0x000200000000000000000000000000000000000000000000 = some (.decA8 0 0 0 0) := by decide

/-! ### Witnesses: each statement's hypotheses are met -/

/-- `dec.a1 0, 0, 4` on a 3-colour block (R142's first example). -/
def wordA1 : CmdWord := 0x00040004000000000000000000000000E4E4E4E4F800001F
def instrA1 : Instr := .decA1 0 0 4 0xE4E4E4E4F800001F

/-- `dec.a8 4, 0, 8` (P1). -/
def wordA8 : CmdWord := 0x0002000800000004E4E4E4E4F800001FFAC688FAC68800FF
def instrA8 : Instr := .decA8 4 0 8 0xE4E4E4E4F800001FFAC688FAC68800FF

def reservedWord : CmdWord := 0x000300000000000000000000000000000000000000000000

/-- A state whose next action is `a`. -/
def withAction (a : HostAction) : State := { State.reset with imgBytes := 128, program := [a] }

theorem witness_OpcodeMapIsMatchAndMask : decodeWord wordA1 = .ok instrA1 := rfl

theorem witness_VarAndTmSelectTheCommand :
    (∃ w : CmdWord, w.extractLsb' 176 2 = 0 ∧ w.extractLsb' 178 1 = 0) ∧
    (∃ w : CmdWord, w.extractLsb' 176 2 = 0 ∧ w.extractLsb' 178 1 = 1) ∧
    (∃ w : CmdWord, w.extractLsb' 176 2 = 1) ∧ (∃ w : CmdWord, w.extractLsb' 176 2 = 2) ∧
    (∃ w : CmdWord, w.extractLsb' 176 2 = 3) :=
  ⟨⟨0, by decide⟩, ⟨wordA1, by decide⟩, ⟨encode (.decA4 0 0 4 0), by decide⟩, ⟨wordA8, by decide⟩, ⟨reservedWord, by decide⟩⟩

/-- Pairs of different words that agree on the bits read, for each clause, and a command of each kind for the last. -/
theorem witness_IgnoredBitsDoNotMatter :
    (∃ w w' : CmdWord, w ≠ w' ∧ w.extractLsb' 0 179 = w'.extractLsb' 0 179) ∧
    (∃ w w' : CmdWord, w ≠ w' ∧ w.extractLsb' 176 2 = 0 ∧ w.extractLsb' 0 64 = w'.extractLsb' 0 64 ∧
      w.extractLsb' 128 51 = w'.extractLsb' 128 51) ∧
    (∃ w w' : CmdWord, w ≠ w' ∧ w.extractLsb' 176 2 = 1 ∧ w.extractLsb' 0 178 = w'.extractLsb' 0 178) ∧
    (∃ w w' : CmdWord, w ≠ w' ∧ w.extractLsb' 176 2 = 2 ∧ w.extractLsb' 0 178 = w'.extractLsb' 0 178) ∧
    (encode instrA1).extractLsb' 176 2 = 0 ∧ (encode instrA8).extractLsb' 176 2 ≠ 0 :=
  ⟨⟨wordA1, 0xFFFC0004000000000000000000000000E4E4E4E4F800001F, by decide⟩,
   ⟨wordA1, 0x00040004000000000000000000000001E4E4E4E4F800001F, by decide⟩,
   ⟨0x0001000400000000E4E4E4E4F800001FFEDCBA9876543210, 0xFFFD000400000000E4E4E4E4F800001FFEDCBA9876543210, by decide⟩,
   ⟨0x0002000400000000E4E4E4E4F800001FFAC688FAC68800FF, 0x0006000400000000E4E4E4E4F800001FFAC688FAC68800FF, by decide⟩,
   by decide, by decide⟩

theorem witness_AssembledFieldsAreTheLinesOperands :
    (AsmLine.decRgb 65536 0 4 []).wellFormed = false ∧ (65535 : Nat) ≤ 65535 ∧
    ([1, 2, 3, 4, 5, 6, 7, 8] : List Byte).length = 8 ∧ (List.replicate 16 (0 : Byte)).length = 16 := by decide

theorem witness_StepRunsTheDecodedCommand :
    nextAction (withAction (.command wordA1)) = some (.command wordA1) ∧ decodeWord wordA1 = .ok instrA1 := ⟨rfl, rfl⟩

theorem witness_EveryCommandWordIsAnsweredInOrder :
    nextAction (withAction (.command wordA8)) = some (.command wordA8) := rfl

theorem witness_ReservedVariantRaisesIllegalCommand :
    nextAction (withAction (.command reservedWord)) = some (.command reservedWord) ∧ reservedWord.extractLsb' 176 2 = 3 := ⟨rfl, rfl⟩

theorem witness_EndedRunIsIdle : State.reset.RunEnded := rfl

theorem witness_HostResetClearsFlagsAlone : nextAction (withAction .reset) = some .reset := rfl

theorem witness_StepKeepsInvariant :
    ∃ t, (withAction (.command wordA1)).Inv ∧ step (withAction (.command wordA1)) = .next t := ⟨_, by decide, rfl⟩

theorem witness_RunParametersNeverChange : ∃ t, step (withAction (.command wordA1)) = .next t := ⟨_, rfl⟩

/-- A run whose first response was `FootprintOutOfBounds` and whose next command completes (P4). -/
theorem witness_FaultedRunStaysFaulted :
    ∃ s t : State, s.RunFaulted ∧ step s = .next t :=
  ⟨{ withAction (.command wordA1) with responses := [.footprintOutOfBounds] }, _, ⟨.footprintOutOfBounds, by decide⟩, rfl⟩

theorem witness_OnlyHostClearsFlags :
    ∃ s t : State, step s = .next t ∧ (∀ v, nextAction s ≠ some (.wrflags v)) ∧ nextAction s ≠ some .reset ∧
      flagFT s.flags = true ∧ flagPT s.flags = true :=
  ⟨{ withAction (.command wordA1) with flags := 3 }, _, rfl, fun v h => (by cases h), by decide, by decide,
    by decide⟩

/-- Both tests of the check fail at their boundaries, and the check passes at them. -/
theorem witness_FootprintCheckGuardsEveryCommand :
    (∃ (i : Instr) (s : State), (xOf i).toNat + 4 > (wOf i).toNat ∧ s.imgBytes = 1000) ∧
    (∃ (i : Instr) (s : State), ((yOf i).toNat + 3) * (wOf i).toNat + ((xOf i).toNat + 3) = 15 ∧ 15 * 4 + 4 > s.imgBytes ∧
      bpp (layoutOf i) = 4) ∧
    (∃ i : Instr, commandFits 64 i = true ∧ commandFits 63 i = false) :=
  ⟨⟨.decRgb 1 0 4 0, { State.reset with imgBytes := 1000 }, by decide⟩, ⟨instrA1, { State.reset with imgBytes := 63 }, by decide⟩,
    ⟨instrA1, by decide⟩⟩

theorem witness_StoredBytesLieInsideImg : commandFits 64 instrA1 = true ∧ 63 ∈ storedAddrs instrA1 := by decide

theorem witness_WriteOrderCannotBeObserved :
    (0#16).toNat + 4 ≤ (4#16).toNat ∧ lanes.reverse.Perm lanes ∧ (3 : Nat) < bpp .rgba ∧
      pixelAddr 0 0 4 (bpp .rgba) 1 + 3 = pixelAddr 0 0 4 (bpp .rgba) 1 + 3 := by
  refine ⟨by decide, List.reverse_perm _, by decide, rfl⟩

theorem witness_CommandWritesItsWholeFootprint :
    ∃ t, commandFits (oneCommand 64 wordA1).imgBytes instrA1 = true ∧ exec instrA1 (oneCommand 64 wordA1) = .next t :=
  ⟨_, by decide, rfl⟩

/-- Boundary values: the 48 bytes of `dec.rgb 0, 0, 4` exactly, and one fewer; the same for `X`. -/
theorem witness_DecRgbCompletes :
    (0#16).toNat + 4 ≤ (4#16).toNat ∧ (((0#16).toNat + 3) * (4#16).toNat + (0#16).toNat + 3) * 3 + 3 ≤ (oneCommand 48 0).imgBytes ∧
    (((0#16).toNat + 3) * (4#16).toNat + (0#16).toNat + 3) * 3 + 3 > (oneCommand 47 0).imgBytes ∧
    (1#16).toNat + 4 > (4#16).toNat := by decide

theorem witness_DecA1Completes :
    (0#16).toNat + 4 ≤ (4#16).toNat ∧ (((0#16).toNat + 3) * (4#16).toNat + (0#16).toNat + 3) * 4 + 4 ≤ (oneCommand 64 0).imgBytes ∧
    (((0#16).toNat + 3) * (4#16).toNat + (0#16).toNat + 3) * 4 + 4 > (oneCommand 63 0).imgBytes := by decide

/-- `dec.a4 4, 0, 8` in an 8 by 4 image, and one byte fewer. -/
theorem witness_DecA4Completes :
    (4#16).toNat + 4 ≤ (8#16).toNat ∧ (((0#16).toNat + 3) * (8#16).toNat + (4#16).toNat + 3) * 4 + 4 ≤ (oneCommand 128 0).imgBytes ∧
    (((0#16).toNat + 3) * (8#16).toNat + (4#16).toNat + 3) * 4 + 4 > (oneCommand 127 0).imgBytes := by decide

/-- P5: the unaligned `dec.a8 2, 1, 6` in 120 bytes fits; at `Y = 2` it does not. -/
theorem witness_DecA8Completes :
    (2#16).toNat + 4 ≤ (6#16).toNat ∧ (((1#16).toNat + 3) * (6#16).toNat + (2#16).toNat + 3) * 4 + 4 ≤ (oneCommand 120 0).imgBytes ∧
    (((2#16).toNat + 3) * (6#16).toNat + (2#16).toNat + 3) * 4 + 4 > (oneCommand 120 0).imgBytes := by decide

/-- A completing command and one that does not fit, each with an address outside its footprint. -/
theorem witness_CommandsChangeNothingElse :
    (∃ t, exec instrA1 (oneCommand 64 0) = .next t) ∧ 64 ∉ storedAddrs instrA1 ∧
    (∃ t, exec instrA1 (oneCommand 63 0) = .next t) ∧ commandFits (oneCommand 63 0).imgBytes instrA1 = false :=
  ⟨⟨_, rfl⟩, by decide, ⟨_, rfl⟩, by decide⟩

theorem witness_FlagsAccumulateByOr :
    (∃ t, exec instrA1 { oneCommand 64 0 with flags := 3 } = .next t) ∧ commandFits 64 instrA1 = true ∧
    commandFits 63 instrA1 = false ∧ flagFT 3 = true ∧ flagPT 3 = true :=
  ⟨⟨_, rfl⟩, by decide, by decide, by decide, by decide⟩

theorem witness_CommandsDoNotReadImg :
    ∃ s s' t t' : State, s.img ≠ s'.img ∧ s.imgBytes = s'.imgBytes ∧ s.flags = s'.flags ∧
      exec instrA1 s = .next t ∧ exec instrA1 s' = .next t' ∧ commandFits s.imgBytes instrA1 = true :=
  ⟨oneCommand 64 0, { oneCommand 64 0 with img := [(5, 0x99)] }, _, _, by decide, rfl, rfl, rfl, rfl, by decide⟩

theorem witness_CommandIsIdempotent :
    ∃ s t u : State, Memory.wf s.img = true ∧ performCommand wordA1 s = .next t ∧ performCommand wordA1 t = .next u :=
  ⟨oneCommand 64 0, _, _, rfl, rfl, rfl⟩

/-- The two commands of P1, on one instance. -/
theorem witness_DisjointCommandsCommute_sequence :
    ∃ s t u t' u' : State, Memory.wf s.img = true ∧ (∀ a ∈ storedAddrs (.decA1 0 0 8 0), a ∉ storedAddrs instrA8) ∧
      exec (.decA1 0 0 8 0) s = .next t ∧ exec instrA8 t = .next u ∧ exec instrA8 s = .next t' ∧ exec (.decA1 0 0 8 0) t' = .next u' :=
  ⟨oneCommand 128 0, _, _, _, _, rfl, by decide, rfl, rfl, rfl, rfl⟩

/-- Two commands on one footprint. -/
theorem witness_LaterCommandWins :
    ∃ s t u : State, exec (.decA4 0 0 4 0) s = .next t ∧ exec instrA1 t = .next u ∧ commandFits s.imgBytes instrA1 = true ∧
      3 < bpp (layoutOf instrA1) :=
  ⟨oneCommand 64 0, _, _, rfl, rfl, by decide, by decide⟩

/-- The last clause of the four commands' statements: words with ignored bits set that carry the fields. -/
theorem witness_command_words :
    (∃ c : CmdWord, c.extractLsb' 176 2 = 0 ∧ c.extractLsb' 178 1 = 0 ∧ c.extractLsb' 128 16 = 0 ∧ c.extractLsb' 144 16 = 0 ∧
      c.extractLsb' 160 16 = 4 ∧ c.extractLsb' 0 64 = 0xFFAA5500001FF800) ∧
    (∃ c : CmdWord, c.extractLsb' 176 2 = 0 ∧ c.extractLsb' 178 1 = 1 ∧ c.extractLsb' 160 16 = 4 ∧
      c.extractLsb' 0 64 = 0xE4E4E4E4F800001F) ∧
    (∃ c : CmdWord, c.extractLsb' 176 2 = 1 ∧ c.extractLsb' 178 1 = 1 ∧ c.extractLsb' 160 16 = 4 ∧ c.extractLsb' 0 64 = 0) ∧
    (∃ c : CmdWord, c.extractLsb' 176 2 = 2 ∧ c.extractLsb' 178 1 = 1 ∧ c.extractLsb' 160 16 = 8 ∧ c.extractLsb' 128 16 = 4) :=
  ⟨⟨0xFFF80004000000000000000000000001FFAA5500001FF800, by decide⟩, ⟨wordA1, by decide⟩,
   ⟨0x000500040000000000000000000000000000000000000000, by decide⟩, ⟨0x0006000800000004E4E4E4E4F800001FFAC688FAC68800FF, by decide⟩⟩

theorem witness_FourColourRampFloors : (0xF800#16).toNat > (0x001F#16).toNat := by decide

/-- Equal references take the 3-colour branch. -/
theorem witness_ThreeColourRampFloors : (0x1234#16).toNat ≤ (0x1234#16).toNat := le_rfl

theorem witness_AlphaTableEightLevels : (128#8).toNat > (127#8).toNat := by decide

theorem witness_AlphaTableSixLevels : (127#8).toNat ≤ (127#8).toNat := le_rfl

theorem witness_ExpansionIsInjective : expand565 config 0x1234 = expand565 config 0x1234 := rfl

theorem witness_RampStepsLieBetweenEndpoints : 0 < 6 + 1 := by decide

theorem witness_HostReadsAndWritesFlags :
    nextAction (withAction (.wrflags 2)) = some (.wrflags 2) ∧ nextAction (withAction .rdflags) = some .rdflags := ⟨rfl, rfl⟩

/-- Each host access at the top of a 128-byte `IMG`, inside and one byte outside. -/
theorem witness_HostAccessesImg :
    (∃ s, nextAction s = some (.fill 126 2 7) ∧ 126 + 2 ≤ s.imgBytes) ∧
    (∃ s, nextAction s = some (.write 126 [1, 2]) ∧ 126 + [(1 : Byte), 2].length ≤ s.imgBytes) ∧
    (∃ s, nextAction s = some (.read 126 2) ∧ 126 + 2 ≤ s.imgBytes) ∧
    (∃ s, nextAction s = some (.fill 126 3 7) ∧ s.imgBytes < 126 + 3) ∧
    (∃ s, nextAction s = some (.write 127 [1, 2]) ∧ s.imgBytes < 127 + [(1 : Byte), 2].length) ∧
    (∃ s, nextAction s = some (.read 128 1) ∧ s.imgBytes < 128 + 1) :=
  ⟨⟨withAction (.fill 126 2 7), by decide⟩, ⟨withAction (.write 126 [1, 2]), by decide⟩, ⟨withAction (.read 126 2), by decide⟩,
   ⟨withAction (.fill 126 3 7), by decide⟩, ⟨withAction (.write 127 [1, 2]), by decide⟩, ⟨withAction (.read 128 1), by decide⟩⟩

/-- Two instances over a 128-byte `IMG` with one command word each. -/
def twoInstances (w0 w1 : CmdWord) : Cluster :=
  ⟨128, [], [portOf (withAction (.command w0)), portOf (withAction (.command w1))]⟩

/-- `dec.a1 0, 0, 8` (P1). -/
def wordA1Wide : CmdWord := 0x00040008000000000000000000000000E4E4E4E4F800001F

theorem witness_InstancesShareOnlyImg : ∃ c', (twoInstances wordA1Wide wordA8).stepInstance 1 = .next c' := ⟨_, rfl⟩

/-- The same command in flight on both instances. -/
theorem witness_OverlapInFlightIsARace :
    (0 : Nat) ≠ 1 ∧ (twoInstances wordA8 wordA8).actionOf 0 = some (.command wordA8) ∧
    (twoInstances wordA8 wordA8).actionOf 1 = some (.command wordA8) ∧ decodeWord wordA8 = .ok instrA8 ∧
    commandFits 128 instrA8 = true ∧ 16 ∈ storedAddrs instrA8 :=
  ⟨by decide, rfl, rfl, rfl, by decide, by decide⟩

/-- P1 on two instances at the same time. -/
theorem witness_DisjointCommandsCommute_in_flight :
    (0 : Nat) ≠ 1 ∧ Memory.wf (twoInstances wordA1Wide wordA8).img = true ∧
    (twoInstances wordA1Wide wordA8).actionOf 0 = some (.command wordA1Wide) ∧
    (twoInstances wordA1Wide wordA8).actionOf 1 = some (.command wordA8) ∧
    (∀ a ∈ touched 128 (.command wordA1Wide), a ∉ touched 128 (.command wordA8)) :=
  ⟨by decide, rfl, rfl, rfl, by decide⟩

/-- Two instances whose lists have ended, the second with the response `st`. -/
def twoEnded (st : Status) : Cluster :=
  ⟨128, [], [portOf State.reset, { portOf (withAction (.command wordA8)) with pc := 1, responses := [st] }]⟩

/-- Every list has ended; all responses `OK`, and one not `OK`. One list with an action left is not the end. -/
theorem witness_ClusterRunEndsWithEveryList :
    (twoEnded .ok).RunEnded ∧ (twoEnded .ok).RunSuccessful ∧ [0, 1].Nodup ∧ (∀ k ∈ [0, 1], k < (twoEnded .ok).ports.length) ∧
    (twoEnded .footprintOutOfBounds).RunEnded ∧ (twoEnded .footprintOutOfBounds).RunFaulted ∧
    ¬ (twoInstances wordA1Wide wordA8).RunEnded := by decide

/-- The second instance has faulted; the first goes on, alone and in a launch. -/
theorem witness_FaultedClusterRunStaysFaulted :
    ∃ c c' : Cluster, c.RunFaulted ∧ c.stepInstance 0 = .next c' ∧ c.launch [0] = .next c' ∧ c ≠ c' :=
  ⟨⟨128, [], [portOf (withAction (.wrflags 3)), { portOf State.reset with responses := [.illegalCommand] }]⟩, _, by decide, rfl, rfl,
    by decide⟩

/-- Log entry 10: two host writes to byte 0 launched together; the model takes the order listed. -/
theorem test_host_writes_take_the_order_listed :
    (match (Cluster.mk 128 [] [portOf (withAction (.write 0 [1])), portOf (withAction (.write 0 [2]))]).launch [1, 0] with
      | .next c => readByte c.img 0
      | .fault _ => none
      | .refused _ => none) = some 1 := by decide

end Sys2Proof.Tests
end

section
/-! PROOFS, family 20_memory.md: what a command leaves in its footprint does not depend on what `IMG` held (R43). -/

namespace Sys2Proof.Machine

/-- Two memories read alike at a byte after the same lanes are written to both, where they read alike before or a lane covers the
byte. It does not matter whether lanes overlap: the last lane that covers the byte is the same in both. -/
theorem foldl_writePixel_congr (l : Layout) (x y w : Coord) (px : Lane → Pixel) (ps : List Lane) {m m' : Memory} {a : Nat}
    (h : readByte m a = readByte m' a ∨ ∃ p ∈ ps, ∃ k < bpp l, a = pixelAddr x y w (bpp l) p + k) :
    readByte (ps.foldl (writePixel l x y w px) m) a = readByte (ps.foldl (writePixel l x y w px) m') a := by
  induction ps generalizing m m' with
  | nil => simpa using h
  | cons p ps ih =>
    refine ih ?_
    by_cases hp : ∃ k < bpp l, a = pixelAddr x y w (bpp l) p + k
    · obtain ⟨k, hk, rfl⟩ := hp
      exact .inl ((readByte_memWrite_inside m _ _ hk).trans (readByte_memWrite_inside m' _ _ hk).symm)
    · rcases h with h | ⟨q, hq, hqa⟩
      · have outside : a < pixelAddr x y w (bpp l) p ∨ pixelAddr x y w (bpp l) p + bpp l ≤ a := by
          by_contra hc
          exact hp ⟨a - pixelAddr x y w (bpp l) p, by omega, by omega⟩
        exact .inl ((readByte_memWrite_outside m _ outside).trans (h.trans (readByte_memWrite_outside m' _ outside).symm))
      · rcases List.mem_cons.1 hq with rfl | hq
        · exact absurd hqa hp
        · exact .inr ⟨q, hq, hqa⟩

/-- In its footprint a block leaves the same bytes over any two memories. -/
theorem readByte_writeBlock_independent {l : Layout} {x y w : Coord} {a : Nat} (h : a ∈ footprintAddrs l x y w)
    (px : Lane → Pixel) (m m' : Memory) : readByte (writeBlock l x y w px m) a = readByte (writeBlock l x y w px m') a := by
  obtain ⟨p, k, hk, ha⟩ := mem_footprintAddrs.1 h
  exact foldl_writePixel_congr l x y w px lanes (.inr ⟨p, mem_lanes p, k, hk, ha⟩)

/-- Settles O31: the two states pass or fail the footprint check together, the flags and the response come from `FLAGS` and the lanes
alone, and every byte of the footprint is written over. -/
theorem commandsDoNotReadImg : Obligations.CommandsDoNotReadImg := by
  unfold Obligations.CommandsDoNotReadImg
  intro i s s' t t' hBytes hFlags ht ht'
  rcases exec_cases ht with ⟨hFit, rfl⟩ | ⟨hFit, rfl⟩
  · rw [exec_fits (hBytes ▸ hFit)] at ht'
    cases ht'
    exact ⟨by simp [hFlags], ⟨.ok, rfl, rfl⟩, fun _ a ha => readByte_writeBlock_independent ha _ _ _⟩
  · rw [exec_outOfBounds (hBytes ▸ hFit)] at ht'
    cases ht'
    exact ⟨by simp [hFlags], ⟨.footprintOutOfBounds, rfl, rfl⟩, fun hf => by simp [hFit] at hf⟩

end Sys2Proof.Machine
end

section
/-! PROOFS, family 40_datapath.md: the palette's branch and its ramps (R104 to R107), and the accumulation of the flags (R23, R125). -/

namespace Sys2Proof.Machine

/-! ### The palette's slots -/

@[simp] theorem pick_zero (P : Palette) : P.pick 0#2 = some P.p0 := rfl
@[simp] theorem pick_one (P : Palette) : P.pick 1#2 = some P.p1 := rfl
@[simp] theorem pick_two (P : Palette) : P.pick 2#2 = some P.p2 := rfl
@[simp] theorem pick_three (P : Palette) : P.pick 3#2 = P.p3 := rfl

/-- Entry 0 is the expanded reference 0 in both branches (R104). -/
@[simp] theorem palette4_p0 (cfg : Config) (c0 c1 : Packed565) (f : Bool) : (palette4 cfg c0 c1 f).p0 = expand565 cfg c0 := by
  cases h : fourColours c0 c1 f
  · rw [palette4_three cfg h]
  · rw [palette4_four cfg h]

/-- Entry 1 is the expanded reference 1 in both branches (R104). -/
@[simp] theorem palette4_p1 (cfg : Config) (c0 c1 : Packed565) (f : Bool) : (palette4 cfg c0 c1 f).p1 = expand565 cfg c1 := by
  cases h : fourColours c0 c1 f
  · rw [palette4_three cfg h]
  · rw [palette4_four cfg h]

/-- `special = !four` (R105). -/
theorem palette4_special (cfg : Config) (c0 c1 : Packed565) (f : Bool) :
    (palette4 cfg c0 c1 f).special = !fourColours c0 c1 f := by
  cases h : fourColours c0 c1 f
  · rw [palette4_three cfg h]; rfl
  · rw [palette4_four cfg h]; rfl

/-- Unforced, the 3-colour branch is taken for `c0 <= c1`, equal references included (R105). -/
theorem fourColours_unforced_eq_false {c0 c1 : Packed565} (h : c0.toNat ≤ c1.toNat) : fourColours c0 c1 false = false := by
  simp [fourColours, h]

/-- A ramp step is exact in each channel separately. -/
theorem weightedRgb_toNat {wa wb d : Nat} (a b : Rgb) (hd : 0 < d) (h : wa + wb ≤ d) :
    (weightedRgb wa wb d a b).r.toNat = (wa * a.r.toNat + wb * b.r.toNat) / d ∧
    (weightedRgb wa wb d a b).g.toNat = (wa * a.g.toNat + wb * b.g.toNat) / d ∧
    (weightedRgb wa wb d a b).b.toNat = (wa * a.b.toNat + wb * b.b.toNat) / d :=
  ⟨weighted_toNat _ _ hd h, weighted_toNat _ _ hd h, weighted_toNat _ _ hd h⟩

/-- Settles O37: `special` is the negation of `fourColours`, which compares the packed references, and slot 3 alone can lack a value. -/
theorem branchComparesRawReferences : Obligations.BranchComparesRawReferences := by
  unfold Obligations.BranchComparesRawReferences
  intro cfg c0 c1 force4 P
  have hSpecial : P.special = true ↔ ¬ (force4 = true ∨ c0.toNat > c1.toNat) := by
    rw [palette4_special, Bool.not_eq_true', ← Bool.not_eq_true, fourColours_eq_true]
  exact ⟨by simp [P], by simp [P], hSpecial, pick_eq_none_iff P⟩

/-- Settles O38: the 4-colour branch holds the 2:1 and the 1:2 ramp step, and each is exact in every channel. -/
theorem fourColourRampFloors : Obligations.FourColourRampFloors := by
  unfold Obligations.FourColourRampFloors
  intro cfg c0 c1 force4 hFour e0 e1
  obtain ⟨r2, g2, b2⟩ := weightedRgb_toNat (wa := 2) (wb := 1) (d := 3) e0 e1 (by decide) (by decide)
  obtain ⟨r3, g3, b3⟩ := weightedRgb_toNat (wa := 1) (wb := 2) (d := 3) e0 e1 (by decide) (by decide)
  rw [one_mul] at r2 g2 b2 r3 g3 b3
  rw [palette4_four cfg (fourColours_eq_true.2 hFour)]
  exact ⟨_, _, pick_two _, pick_three _, r2, r3, g2, g3, b2, b3⟩

/-- Settles O39: the 3-colour branch holds the 1:1 ramp step, exact in every channel, and nothing in slot 3. -/
theorem threeColourRampFloors : Obligations.ThreeColourRampFloors := by
  unfold Obligations.ThreeColourRampFloors
  intro cfg c0 c1 hLe e0 e1
  have hMid := weightedRgb_toNat (wa := 1) (wb := 1) (d := 2) e0 e1 (by decide) (by decide)
  simp only [one_mul] at hMid
  rw [palette4_three cfg (fourColours_unforced_eq_false hLe)]
  exact ⟨pick_three _, _, pick_two _, hMid⟩

/-! ### The flags -/

/-- Settles O30: a command that fits ORs its two block flags into `FLAGS`, one that does not fit raises, which leaves `FLAGS` alone;
neither clears a bit. -/
theorem flagsAccumulateByOr : Obligations.FlagsAccumulateByOr := by
  unfold Obligations.FlagsAccumulateByOr
  intro i s t ht
  rcases exec_cases ht with ⟨hFit, rfl⟩ | ⟨hFit, rfl⟩
  · have hFT : flagFT (s.completeBlock (layoutOf i) (xOf i) (yOf i) (wOf i) (lanesOf i)).flags = true ↔
        flagFT s.flags = true ∨ ∃ p, (lanesOf i p).alpha.toNat = 0 := by
      simp only [State.completeBlock_flags, flagFT_accumulateFlags, Bool.or_eq_true, ftBlk_eq_true]
    have hPT : flagPT (s.completeBlock (layoutOf i) (xOf i) (yOf i) (wOf i) (lanesOf i)).flags = true ↔
        flagPT s.flags = true ∨ ∃ p, 0 < (lanesOf i p).alpha.toNat ∧ (lanesOf i p).alpha.toNat < 255 := by
      simp only [State.completeBlock_flags, flagPT_accumulateFlags, Bool.or_eq_true, ptBlk_eq_true]
    exact ⟨fun _ => ⟨hFT, hPT⟩, fun hNot => absurd (hFit.symm.trans hNot) (by decide), hFT.2 ∘ .inl, hPT.2 ∘ .inl⟩
  · exact ⟨fun hYes => absurd (hFit.symm.trans hYes) (by decide), fun _ => State.raise_flags _ _, id, id⟩

end Sys2Proof.Machine
end

section
/-! PROOFS, family 42_explicit_alpha_decoder.md: where a pixel's nibble lies in the block, and its alpha as a number (R150). -/

namespace Sys2Proof.Machine

/-- A slice of a slice is the slice at the sum of the offsets, where it stays inside the outer one. -/
theorem extractLsb_extractLsb {n len k off : Nat} (x : BitVec n) (start : Nat) (h : off + k ≤ len) :
    (x.extractLsb' start len).extractLsb' off k = x.extractLsb' (start + off) k := by
  ext i hi
  simp [show off + i < len by omega, Nat.add_assoc]

/-- A little-endian 16-bit field is the contiguous slice of the block at its first byte (R11). -/
theorem le16_eq_extractLsb {n : Nat} (blk : BitVec n) (i : Nat) : le16 blk i = blk.extractLsb' (8 * i) 16 :=
  BitVec.extractLsb'_append_extractLsb'_eq_extractLsb' (by omega)

/-- The nibble of pixel `p` is the slice at bit `4*p` of the block: four nibbles in each row's alpha word, one word per row
(R78 read as R150 does). -/
theorem nibble_eq_extractLsb (blk : BitVec 128) (p : Lane) : nibble blk p = blk.extractLsb' (4 * p.val) 4 := by
  have hInWord : 4 * col p + 4 ≤ 16 := by unfold col; omega
  have hOffset : 8 * (2 * row p) + 4 * col p = 4 * p.val := by unfold row col; omega
  rw [nibble, extract, alphaWord, le16_eq_extractLsb, extractLsb_extractLsb blk _ hInWord, hOffset]

/-- A nibble's number is its position in the number of the block. -/
theorem nibble_toNat (blk : BitVec 128) (p : Lane) : (nibble blk p).toNat = blk.toNat / 2 ^ (4 * p.val) % 16 := by
  rw [nibble_eq_extractLsb, BitVec.extractLsb'_toNat, Nat.shiftRight_eq_div_pow]

/-- Scaling a nibble by 17 stays within a byte: the largest is `15 * 17 = 255` (R114). -/
theorem explicitAlpha_toNat (blk : BitVec 128) (p : Lane) : (explicitAlpha blk p).toNat = (nibble blk p).toNat * 17 := by
  have hNibble : (nibble blk p).toNat < 16 := (nibble blk p).isLt
  rw [explicitAlpha, BitVec.toNat_ofNat]
  exact Nat.mod_eq_of_lt (by omega)

/-- Settles O42: scaling by 17 is exact, and the nibble is the slice of the block at bit `4*p`. -/
theorem explicitAlphaIsNibbleTimes17 : Obligations.ExplicitAlphaIsNibbleTimes17 := by
  unfold Obligations.ExplicitAlphaIsNibbleTimes17
  intro blk p
  rw [explicitAlpha_toNat, nibble_toNat]

end Sys2Proof.Machine
end

section
/-! PROOFS, family 43_alpha_ramp_decoder.md: the lanes of one footprint are apart, so every pixel of a block reads back (R45, R52), and
`DEC_A8` over them (R160, R161). -/

namespace Sys2Proof.Machine

/-! ### The pixels of a block read back -/

/-- Inside `W` columns the pixels of a block lie in `IMG` in the order of their numbers, without overlap (R45, R171). -/
theorem pixelAddr_add_le_of_lt {x y w : Coord} (b : Nat) {p q : Lane} (hX : x.toNat + 4 ≤ w.toNat) (hpq : p < q) :
    pixelAddr x y w b p + b ≤ pixelAddr x y w b q := by
  have hIndex : (y.toNat + row p) * w.toNat + (x.toNat + col p) + 1 ≤ (y.toNat + row q) * w.toNat + (x.toNat + col q) := by
    have hOrder : row p < row q ∨ row p = row q ∧ col p < col q := by
      rw [Fin.lt_def] at hpq
      unfold row col
      omega
    rcases hOrder with hRow | ⟨hRow, hCol⟩
    · have hRows : (y.toNat + row p + 1) * w.toNat ≤ (y.toNat + row q) * w.toNat := Nat.mul_le_mul_right _ (by omega)
      have hCol : col p < 4 := Nat.mod_lt _ (by decide)
      rw [Nat.succ_mul] at hRows
      omega
    · rw [hRow]
      omega
  calc pixelAddr x y w b p + b = ((y.toNat + row p) * w.toNat + (x.toNat + col p) + 1) * b := (Nat.succ_mul _ _).symm
    _ ≤ pixelAddr x y w b q := Nat.mul_le_mul_right _ hIndex

/-- Inside `W` columns every byte of every pixel reads back from the written block, whatever was there before. -/
theorem readByte_writeBlock_pixel {l : Layout} {x y w : Coord} (px : Lane → Pixel) (m : Memory) (p : Lane) {k : Nat}
    (hX : x.toNat + 4 ≤ w.toNat) (hk : k < bpp l) :
    readByte (writeBlock l x y w px m) (pixelAddr x y w (bpp l) p + k) = some ((pixelValue (px p)).extractLsb' (8 * k) 8) := by
  refine readByte_writeBlock_inside l x y w px m hk fun q hqp => ?_
  rcases lt_or_gt_of_ne hqp with hlt | hgt
  · have hBefore := pixelAddr_add_le_of_lt (y := y) (bpp l) hX hlt
    omega
  · have hAfter := pixelAddr_add_le_of_lt (y := y) (bpp l) hX hgt
    omega

/-- The four bytes of a pixel in the RGBA layout, in memory order (R42, R121). -/
theorem readByte_writeBlock_rgba {x y w : Coord} (px : Lane → Pixel) (m : Memory) (p : Lane) (hX : x.toNat + 4 ≤ w.toNat) :
    readByte (writeBlock .rgba x y w px m) (pixelAddr x y w 4 p) = some (px p).colour.r ∧
    readByte (writeBlock .rgba x y w px m) (pixelAddr x y w 4 p + 1) = some (px p).colour.g ∧
    readByte (writeBlock .rgba x y w px m) (pixelAddr x y w 4 p + 2) = some (px p).colour.b ∧
    readByte (writeBlock .rgba x y w px m) (pixelAddr x y w 4 p + 3) = some (px p).alpha := by
  have hByte := fun k => readByte_writeBlock_pixel (l := .rgba) (y := y) px m p (k := k) hX
  exact ⟨by simpa using hByte 0, by simpa using hByte 1, by simpa using hByte 2, by simpa using hByte 3⟩

/-! ### The fields of an A4 or A8 block -/

/-- Byte `i` of the colour block is byte `8 + i` of the block (R74). -/
theorem blkByte_colourBlock (blk : BitVec 128) {i : Nat} (hi : i < 8) : blkByte (colourBlock blk) i = blkByte blk (8 + i) := by
  rw [blkByte, colourBlock, extractLsb_extractLsb blk 64 (by omega), blkByte, Nat.mul_add]

@[simp] theorem ref0_colourBlock (blk : BitVec 128) : ref0 (colourBlock blk) = le16 blk 8 := by
  simp [ref0, le16, blkByte_colourBlock]

@[simp] theorem ref1_colourBlock (blk : BitVec 128) : ref1 (colourBlock blk) = le16 blk 10 := by
  simp [ref1, le16, blkByte_colourBlock]

@[simp] theorem colourGrid_colourBlock (blk : BitVec 128) : colourGrid (colourBlock blk) = le32 blk 12 := by
  simp [colourGrid, le32, le16, blkByte_colourBlock]

theorem config_colorOff (p : Lane) : config.colorOff[p] = 2 * p.val := by revert p; decide

theorem config_alphaOff (p : Lane) : config.alphaOff[p] = 3 * p.val := by revert p; decide

/-- The colour index of pixel `p` in an `A4` or `A8` block (R77, R110). -/
@[simp] theorem colourIndex_colourBlock (blk : BitVec 128) (p : Lane) :
    colourIndex config (colourBlock blk) p = (le32 blk 12).extractLsb' (2 * p.val) 2 := by
  rw [colourIndex, extract, config_colorOff, colourGrid_colourBlock]

/-- The alpha index of pixel `p` (R79, R111). -/
theorem alphaIndex_eq (blk : BitVec 128) (p : Lane) : alphaIndex config blk p = (le48 blk 2).extractLsb' (3 * p.val) 3 := by
  rw [alphaIndex, extract, config_alphaOff, alphaGrid]

/-! ### `DEC_A8` -/

/-- The colour of a lane is an entry of the forced palette, never the special slot's (R108, R161). -/
theorem lanesA8_colour (blk : BitVec 128) (p : Lane) :
    (palette4 config (le16 blk 8) (le16 blk 10) true).pick ((le32 blk 12).extractLsb' (2 * p.val) 2) =
      some (lanesA8 config blk p).colour := by
  obtain ⟨c, hc⟩ := Option.ne_none_iff_exists'.1
    (pick_forced config (le16 blk 8) (le16 blk 10) ((le32 blk 12).extractLsb' (2 * p.val) 2))
  simp [lanesA8, hc]

/-- The alpha of a lane is the entry of the alpha table its index selects (R161). -/
theorem lanesA8_alpha (blk : BitVec 128) (p : Lane) :
    (lanesA8 config blk p).alpha =
      alphaEntry (alphaTable (blkByte blk 0) (blkByte blk 1)) ((le48 blk 2).extractLsb' (3 * p.val) 3) := by
  rw [← alphaIndex_eq]
  rfl

/-- `VAR = 2` selects `DEC_A8`, whatever `TM` is (R73). -/
theorem decodeWord_decA8 {c : CmdWord} (hVar : cmdVar c = 2) :
    decodeWord c = .ok (.decA8 (cmdX c) (cmdY c) (cmdW c) (cmdBlock c)) := by
  simp [decodeWord, hVar]

/-- Settles O28: under the check the command completes over lanes that read back byte by byte, and its flags are the block's ORed in;
else the check fails; `VAR = 2` decodes to it. -/
theorem decA8Completes : Obligations.DecA8Completes := by
  unfold Obligations.DecA8Completes
  intro x y w blk s P T ea
  have hFits : commandFits s.imgBytes (.decA8 x y w blk) = true ↔
      x.toNat + 4 ≤ w.toNat ∧ ((y.toNat + 3) * w.toNat + x.toNat + 3) * 4 + 4 ≤ s.imgBytes := footprintOk_iff
  have hAlpha : ∀ p, (lanesOf (.decA8 x y w blk) p).alpha = ea p := lanesA8_alpha blk
  refine ⟨fun hX hBytes => ?_, fun hOut => ?_, fun c hVar hx hy hw hblk => ?_⟩
  · have hFit := hFits.2 ⟨hX, hBytes⟩
    have hExec : exec (.decA8 x y w blk) s = .next (s.completeBlock .rgba x y w (lanesA8 config blk)) := exec_fits hFit
    obtain ⟨hFT, hPT⟩ := (flagsAccumulateByOr _ _ _ hExec).1 hFit
    simp only [hAlpha] at hFT hPT
    refine ⟨_, hExec, State.completeBlock_pc .., State.completeBlock_responses .., ?_, hPT, fun p => ?_⟩
    · simpa [← BitVec.toNat_inj] using hFT
    · rw [State.completeBlock_img, ← hAlpha p]
      exact ⟨_, lanesA8_colour blk p, readByte_writeBlock_rgba _ _ p hX⟩
  · exact exec_outOfBounds (by rw [← Bool.not_eq_true, hFits]; omega)
  · subst hx hy hw hblk
    exact performCommand_ok (decodeWord_decA8 hVar) s

end Sys2Proof.Machine
end

section
/-! PROOFS, family 30_encoding.md: the fields of the command word, the two round trips between a number and its bytes, the match and mask
table, and the assembler (R70 to R73, R81 to R86). -/

namespace Sys2Proof

/-! ### The fields of a packed word (R71) -/

section Fields
variable (rsv : BitVec 13) (tm : BitVec 1) (var : BitVec 2) (w y x : Coord) (block : BitVec 128)

/-- A field in the middle of a concatenation. -/
theorem extractLsb_append_middle {n m k : Nat} (high : BitVec n) (field : BitVec k) (low : BitVec m) :
    (high ++ field ++ low).extractLsb' m k = field :=
  (extractLsb_append_high (high ++ field) low 0 k).trans <|
    (extractLsb_append_low high field (by omega)).trans BitVec.extractLsb'_eq_self

@[simp] theorem cmdBlock_packWord : cmdBlock (packWord rsv tm var w y x block) = block :=
  (extractLsb_append_low (rsv ++ tm ++ var ++ w ++ y ++ x) block (by decide)).trans BitVec.extractLsb'_eq_self

@[simp] theorem cmdX_packWord : cmdX (packWord rsv tm var w y x block) = x :=
  extractLsb_append_middle (rsv ++ tm ++ var ++ w ++ y) x block

@[simp] theorem cmdY_packWord : cmdY (packWord rsv tm var w y x block) = y :=
  (extractLsb_append_high (rsv ++ tm ++ var ++ w ++ y ++ x) block 16 16).trans <|
    extractLsb_append_middle (rsv ++ tm ++ var ++ w) y x

@[simp] theorem cmdW_packWord : cmdW (packWord rsv tm var w y x block) = w :=
  (extractLsb_append_high (rsv ++ tm ++ var ++ w ++ y ++ x) block 32 16).trans <|
    (extractLsb_append_high (rsv ++ tm ++ var ++ w ++ y) x 16 16).trans <|
      extractLsb_append_middle (rsv ++ tm ++ var) w y

@[simp] theorem cmdVar_packWord : cmdVar (packWord rsv tm var w y x block) = var :=
  (extractLsb_append_high (rsv ++ tm ++ var ++ w ++ y ++ x) block 48 2).trans <|
    (extractLsb_append_high (rsv ++ tm ++ var ++ w ++ y) x 32 2).trans <|
      (extractLsb_append_high (rsv ++ tm ++ var ++ w) y 16 2).trans <|
        extractLsb_append_middle (rsv ++ tm) var w

@[simp] theorem cmdTm_packWord : cmdTm (packWord rsv tm var w y x block) = tm :=
  (extractLsb_append_high (rsv ++ tm ++ var ++ w ++ y ++ x) block 50 1).trans <|
    (extractLsb_append_high (rsv ++ tm ++ var ++ w ++ y) x 34 1).trans <|
      (extractLsb_append_high (rsv ++ tm ++ var ++ w) y 18 1).trans <|
        (extractLsb_append_high (rsv ++ tm ++ var) w 2 1).trans <|
          extractLsb_append_middle rsv tm var

end Fields

/-! ### Which command a word is (R73, R82) -/

/-- The low half of `BLOCK` is the low half of the word's lowest field. -/
theorem cmdBlockLow_eq (c : CmdWord) : cmdBlockLow c = c.extractLsb' 0 64 :=
  Machine.extractLsb_extractLsb c 0 (by decide)

theorem decodeWord_decRgb {c : CmdWord} (hVar : cmdVar c = 0) (hTm : cmdTm c = 0) :
    decodeWord c = .ok (.decRgb (cmdX c) (cmdY c) (cmdW c) (cmdBlockLow c)) := by
  simp [decodeWord, hVar, hTm]

theorem decodeWord_decA1 {c : CmdWord} (hVar : cmdVar c = 0) (hTm : cmdTm c = 1) :
    decodeWord c = .ok (.decA1 (cmdX c) (cmdY c) (cmdW c) (cmdBlockLow c)) := by
  simp [decodeWord, hVar, hTm]

theorem decodeWord_decA4 {c : CmdWord} (hVar : cmdVar c = 1) :
    decodeWord c = .ok (.decA4 (cmdX c) (cmdY c) (cmdW c) (cmdBlock c)) := by
  simp [decodeWord, hVar]

theorem decodeWord_reserved {c : CmdWord} (hVar : cmdVar c = 3) : decodeWord c = .error .reservedVariant := by
  simp [decodeWord, hVar]

/-- The five kinds of word: one for each command, and the reserved encoding (R73, R82). -/
theorem cmdVar_cmdTm_cases (c : CmdWord) :
    (cmdVar c = 0 ∧ cmdTm c = 0) ∨ (cmdVar c = 0 ∧ cmdTm c = 1) ∨ cmdVar c = 1 ∨ cmdVar c = 2 ∨ cmdVar c = 3 := by
  generalize cmdVar c = var
  generalize cmdTm c = tm
  revert var tm
  decide

/-- A word is refused by the decoder exactly where `VAR = 3` (R82). -/
theorem decodeWord_eq_reserved_iff (c : CmdWord) : decodeWord c = .error .reservedVariant ↔ cmdVar c = 3 := by
  refine ⟨fun h => ?_, decodeWord_reserved⟩
  rcases cmdVar_cmdTm_cases c with ⟨hVar, hTm⟩ | ⟨hVar, hTm⟩ | hVar | hVar | hVar
  · rw [decodeWord_decRgb hVar hTm] at h; cases h
  · rw [decodeWord_decA1 hVar hTm] at h; cases h
  · rw [decodeWord_decA4 hVar] at h; cases h
  · rw [Machine.decodeWord_decA8 hVar] at h; cases h
  · exact hVar

/-- Decoding gives back the command a word was encoded from. -/
theorem decodeWord_encode (i : Instr) : decodeWord (encode i) = .ok i := by
  have hLow (blk : BitVec 64) : (blk.zeroExtend 128).extractLsb' 0 64 = blk := by
    ext k hk
    simp [hk, show k < 128 by omega]
  cases i with
  | decRgb x y w blk =>
    simpa [encode, cmdBlockLow, hLow] using decodeWord_decRgb (c := encode (.decRgb x y w blk)) (by simp [encode]) (by simp [encode])
  | decA1 x y w blk =>
    simpa [encode, cmdBlockLow, hLow] using decodeWord_decA1 (c := encode (.decA1 x y w blk)) (by simp [encode]) (by simp [encode])
  | decA4 x y w blk => simpa [encode] using decodeWord_decA4 (c := encode (.decA4 x y w blk)) (by simp [encode])
  | decA8 x y w blk => simpa [encode] using Machine.decodeWord_decA8 (c := encode (.decA8 x y w blk)) (by simp [encode])

/-! ### Numbers and their bytes, lowest first (R70, R72) -/

@[simp] theorem length_bytesLE {m : Nat} (n : Nat) (v : BitVec m) : (bytesLE n v).length = n := by simp [bytesLE]

theorem bytesLE_succ {m : Nat} (n : Nat) (v : BitVec m) : bytesLE (n + 1) v = v.extractLsb' 0 8 :: bytesLE n (v >>> 8) := by
  simp only [bytesLE, List.range_succ_eq_map, List.map_cons, List.map_map, Nat.mul_zero]
  congr 1
  refine List.map_congr_left fun k _ => ?_
  ext i hi
  simp [show 8 * (k + 1) + i = 8 + (8 * k + i) by omega]

/-- The bytes of a vector stand for its number, as far as they reach. -/
theorem natOfBytesLE_bytesLE {m : Nat} (n : Nat) (v : BitVec m) : natOfBytesLE (bytesLE n v) = v.toNat % 256 ^ n := by
  induction n generalizing v with
  | zero => simp [bytesLE, natOfBytesLE, Nat.mod_one]
  | succ n ih =>
    rw [bytesLE_succ, natOfBytesLE, ih, pow_succ', Nat.mod_mul]
    simp [Nat.shiftRight_eq_div_pow]

/-- Byte `k` of the number that bytes stand for is byte `k` of the list. -/
theorem natOfBytesLE_div_mod (bs : List Byte) {k : Nat} (hk : k < bs.length) : natOfBytesLE bs / 256 ^ k % 256 = bs[k].toNat := by
  induction bs generalizing k with
  | nil => cases hk
  | cons b bs ih =>
    have hb : b.toNat < 256 := b.isLt
    cases k with
    | zero => simp [natOfBytesLE]; omega
    | succ k =>
      have hTail : (b.toNat + 256 * natOfBytesLE bs) / 256 = natOfBytesLE bs := by omega
      rw [natOfBytesLE, pow_succ', ← Nat.div_div_eq_div_mul, hTail]
      exact ih (by simpa using hk)

/-- The 24 bytes of a word determine it. -/
theorem ofNat_natOfBytesLE_commandBytes (w : CmdWord) : BitVec.ofNat 192 (natOfBytesLE (commandBytes w)) = w := by
  rw [commandBytes, natOfBytesLE_bytesLE, Nat.mod_eq_of_lt (by simpa using w.isLt), BitVec.ofNat_toNat, BitVec.setWidth_eq]

/-- Decoding takes the 24 bytes of a word off the front and leaves the rest. -/
theorem decodeBytes_commandBytes_append {w : CmdWord} {i : Instr} (h : decodeWord w = .ok i) (rest : List Byte) :
    decodeBytes (commandBytes w ++ rest) = .ok (i, rest) := by
  have hLength : (commandBytes w).length = 24 := length_bytesLE 24 w
  have hTake : (commandBytes w ++ rest).take 24 = commandBytes w := List.take_left' hLength
  have hDrop : (commandBytes w ++ rest).drop 24 = rest := List.drop_left' hLength
  have hLong : ¬ (commandBytes w ++ rest).length < 24 := by rw [List.length_append]; omega
  rw [decodeBytes, if_neg hLong, hTake, hDrop, ofNat_natOfBytesLE_commandBytes, h]

/-- Settles O1: the fields of the packed word are those it was packed from, and its 24 bytes determine the word. -/
theorem encodedCommandDecodesBack : Obligations.EncodedCommandDecodesBack := by
  unfold Obligations.EncodedCommandDecodesBack
  intro i rest
  exact ⟨decodeWord_encode i, length_bytesLE 24 (encode i), decodeBytes_commandBytes_append (decodeWord_encode i) rest⟩

/-! ### The match and mask table (R81) -/

/-- The bits of a mask are a field: masking a word gives a pattern exactly where the field holds the pattern's value. -/
theorem and_fieldMask_eq_iff {n off : Nat} (c : CmdWord) (v : BitVec n) (h : off + n ≤ 192) :
    c &&& (BitVec.allOnes n).zeroExtend 192 <<< off = v.zeroExtend 192 <<< off ↔ c.extractLsb' off n = v := by
  constructor
  · intro hEq
    ext i hi
    have hBit := congrArg (BitVec.getLsbD · (off + i)) hEq
    simpa [hi, show off + i < 192 by omega, show i < 192 by omega] using hBit
  · rintro rfl
    ext i hi
    by_cases hLow : i < off
    · simp [hLow]
    · by_cases hHigh : i - off < n
      · simp [hLow, hHigh, show off + (i - off) = i by omega, hi]
      · simp [hLow, hHigh]

/-- The rows of `C1` commands look at `TM` and `VAR` together. -/
theorem extractLsb_tm_var (c : CmdWord) : c.extractLsb' 176 3 = cmdTm c ++ cmdVar c := by
  rw [cmdTm, cmdVar, BitVec.extractLsb'_append_extractLsb'_eq_extractLsb' (by decide)]

theorem and_colourRowMask (c : CmdWord) (tm : BitVec 1) :
    c &&& rowDecRgb.mask = (tm ++ 0#2).zeroExtend 192 <<< 176 ↔ cmdVar c = 0 ∧ cmdTm c = tm := by
  refine (and_fieldMask_eq_iff (off := 176) c (tm ++ 0#2) (by decide)).trans ?_
  rw [extractLsb_tm_var]
  generalize cmdVar c = var
  generalize cmdTm c = tm'
  revert tm var tm'
  decide

theorem and_rowDecRgb_mask (c : CmdWord) : c &&& rowDecRgb.mask = rowDecRgb.pattern ↔ cmdVar c = 0 ∧ cmdTm c = 0 :=
  and_colourRowMask c 0

theorem and_rowDecA1_mask (c : CmdWord) : c &&& rowDecA1.mask = rowDecA1.pattern ↔ cmdVar c = 0 ∧ cmdTm c = 1 :=
  and_colourRowMask c 1

theorem and_rowDecA4_mask (c : CmdWord) : c &&& rowDecA4.mask = rowDecA4.pattern ↔ cmdVar c = 1 :=
  and_fieldMask_eq_iff (off := 176) c (1 : BitVec 2) (by decide)

theorem and_rowDecA8_mask (c : CmdWord) : c &&& rowDecA8.mask = rowDecA8.pattern ↔ cmdVar c = 2 :=
  and_fieldMask_eq_iff (off := 176) c (2 : BitVec 2) (by decide)

/-- A statement about every row's masked match is one about the fields `VAR` and `TM`. -/
theorem forall_opcodeRows_iff {c : CmdWord} {P : OpcodeRow → Prop → Prop} :
    (∀ r ∈ opcodeRows, P r (c &&& r.mask = r.pattern)) ↔
      P rowDecRgb (cmdVar c = 0 ∧ cmdTm c = 0) ∧ P rowDecA1 (cmdVar c = 0 ∧ cmdTm c = 1) ∧
      P rowDecA4 (cmdVar c = 1) ∧ P rowDecA8 (cmdVar c = 2) := by
  simp only [opcodeRows, List.forall_mem_cons, and_rowDecRgb_mask, and_rowDecA1_mask, and_rowDecA4_mask, and_rowDecA8_mask]
  simp

/-- A word meets the row of its own command and no other. -/
theorem and_mask_eq_pattern_iff_of_decodeWord {c : CmdWord} {i : Instr} (hd : decodeWord c = .ok i) :
    ∀ r ∈ opcodeRows, (c &&& r.mask = r.pattern ↔ r = rowOf i) := by
  refine (forall_opcodeRows_iff (P := fun r meets => (meets ↔ r = rowOf i))).2 ?_
  rcases cmdVar_cmdTm_cases c with ⟨hVar, hTm⟩ | ⟨hVar, hTm⟩ | hVar | hVar | hVar
  · rw [decodeWord_decRgb hVar hTm] at hd; cases hd; rw [hVar, hTm, rowOf]; decide
  · rw [decodeWord_decA1 hVar hTm] at hd; cases hd; rw [hVar, hTm, rowOf]; decide
  · rw [decodeWord_decA4 hVar] at hd; cases hd; simp [hVar, rowOf, rowDecRgb, rowDecA1, rowDecA4, rowDecA8]
  · rw [Machine.decodeWord_decA8 hVar] at hd; cases hd; simp [hVar, rowOf, rowDecRgb, rowDecA1, rowDecA4, rowDecA8]
  · rw [decodeWord_reserved hVar] at hd; cases hd

/-- A word meets no row exactly where `VAR = 3`. -/
theorem forall_and_mask_ne_pattern_iff (c : CmdWord) : (∀ r ∈ opcodeRows, c &&& r.mask ≠ r.pattern) ↔ cmdVar c = 3 := by
  refine (forall_opcodeRows_iff (P := fun _ meets => ¬ meets)).trans ?_
  generalize cmdVar c = var
  generalize cmdTm c = tm
  revert var tm
  decide

/-- Settles O2: each row is a condition on `VAR` and `TM`, and so is the decoder's answer. -/
theorem opcodeMapIsMatchAndMask : Obligations.OpcodeMapIsMatchAndMask := by
  unfold Obligations.OpcodeMapIsMatchAndMask
  intro c
  refine ⟨fun i => and_mask_eq_pattern_iff_of_decodeWord, forall_and_mask_ne_pattern_iff c, (decodeWord_eq_reserved_iff c).symm,
    fun hTruncated => ?_⟩
  unfold decodeWord at hTruncated
  split_ifs at hTruncated
  cases hTruncated

/-- Settles O3: the decoder reads `VAR`, for `VAR = 0` also `TM`, and takes the operands from the fields. -/
theorem varAndTmSelectTheCommand : Obligations.VarAndTmSelectTheCommand := by
  unfold Obligations.VarAndTmSelectTheCommand
  intro c
  rw [← cmdBlockLow_eq]
  refine ⟨fun hVar hTm => ⟨_, decodeWord_decRgb hVar hTm, rfl, rfl⟩, fun hVar hTm => ⟨_, decodeWord_decA1 hVar hTm, rfl, rfl⟩,
    fun hVar => ⟨_, decodeWord_decA4 hVar, rfl, rfl⟩, fun hVar => ⟨_, Machine.decodeWord_decA8 hVar, rfl, rfl⟩,
    fun hVar i hd => ?_⟩
  rw [decodeWord_reserved hVar] at hd
  cases hd

/-- Settles O5: the five words are evaluated. -/
theorem wordsOfTheSpecDecode : Obligations.WordsOfTheSpecDecode := by
  unfold Obligations.WordsOfTheSpecDecode
  exact ⟨rfl, rfl, rfl, rfl, rfl⟩

/-! ### The ignored bits (R83) -/

/-- Words that agree on a range of bits agree on every field inside it. -/
theorem extractLsb_congr_of_range {c c' : CmdWord} {start len : Nat} (h : c.extractLsb' start len = c'.extractLsb' start len)
    (off k : Nat) (hIn : off + k ≤ len) : c.extractLsb' (start + off) k = c'.extractLsb' (start + off) k := by
  rw [← Machine.extractLsb_extractLsb c start hIn, h, Machine.extractLsb_extractLsb c' start hIn]

/-- A command word is performed as what it decodes to. -/
theorem performCommand_congr {c c' : CmdWord} (h : decodeWord c = decodeWord c') :
    Machine.performCommand c = Machine.performCommand c' := by
  funext s
  rw [Machine.performCommand, h, Machine.performCommand]

/-- Every field but `TM` and `RSV` lies in the low 178 bits. -/
theorem fields_congr_below_tm {c c' : CmdWord} (h : c.extractLsb' 0 178 = c'.extractLsb' 0 178) :
    cmdBlock c = cmdBlock c' ∧ cmdX c = cmdX c' ∧ cmdY c = cmdY c' ∧ cmdW c = cmdW c' ∧ cmdVar c = cmdVar c' := by
  have hField (off k : Nat) (hIn : off + k ≤ 178) : c.extractLsb' off k = c'.extractLsb' off k := by
    simpa using extractLsb_congr_of_range h off k hIn
  exact ⟨hField 0 128 (by decide), hField 128 16 (by decide), hField 144 16 (by decide), hField 160 16 (by decide),
    hField 176 2 (by decide)⟩

/-- The decoder does not read `RSV`. -/
theorem decodeWord_congr_below_rsv {c c' : CmdWord} (h : c.extractLsb' 0 179 = c'.extractLsb' 0 179) : decodeWord c = decodeWord c' := by
  obtain ⟨hBlock, hX, hY, hW, hVar⟩ := fields_congr_below_tm (extractLsb_congr_of_range h 0 178 (by decide))
  have hTm : cmdTm c = cmdTm c' := extractLsb_congr_of_range h 178 1 (by decide)
  simp only [decodeWord, cmdBlockLow, hBlock, hX, hY, hW, hVar, hTm]

/-- For `VAR = 0` the decoder reads the low half of `BLOCK` only. -/
theorem decodeWord_congr_of_var_zero {c c' : CmdWord} (hVar0 : cmdVar c = 0) (hLow : c.extractLsb' 0 64 = c'.extractLsb' 0 64)
    (h : c.extractLsb' 128 51 = c'.extractLsb' 128 51) : decodeWord c = decodeWord c' := by
  have hX : cmdX c = cmdX c' := extractLsb_congr_of_range h 0 16 (by decide)
  have hY : cmdY c = cmdY c' := extractLsb_congr_of_range h 16 16 (by decide)
  have hW : cmdW c = cmdW c' := extractLsb_congr_of_range h 32 16 (by decide)
  have hVar : cmdVar c = cmdVar c' := extractLsb_congr_of_range h 48 2 (by decide)
  have hTm : cmdTm c = cmdTm c' := extractLsb_congr_of_range h 50 1 (by decide)
  rw [← cmdBlockLow_eq, ← cmdBlockLow_eq] at hLow
  simp only [decodeWord, hVar0, ← hVar, hLow, hX, hY, hW, hTm, if_true]

/-- For `VAR = 1` and `2` the decoder does not read `TM`. -/
theorem decodeWord_congr_of_var_one_or_two {c c' : CmdWord} (hVar12 : cmdVar c = 1 ∨ cmdVar c = 2)
    (h : c.extractLsb' 0 178 = c'.extractLsb' 0 178) : decodeWord c = decodeWord c' := by
  obtain ⟨hBlock, hX, hY, hW, hVar⟩ := fields_congr_below_tm h
  rcases hVar12 with hVar1 | hVar2
  · rw [decodeWord_decA4 hVar1, decodeWord_decA4 (hVar ▸ hVar1), hBlock, hX, hY, hW]
  · rw [Machine.decodeWord_decA8 hVar2, Machine.decodeWord_decA8 (hVar ▸ hVar2), hBlock, hX, hY, hW]

/-- The encoder of an 8-byte form leaves the upper half of `BLOCK` zero. -/
theorem extractLsb_packWord_upperBlock (tm : BitVec 1) (var : BitVec 2) (w y x : Coord) (blk : BitVec 64) :
    (packWord 0 tm var w y x (blk.zeroExtend 128)).extractLsb' 64 64 = 0 := by
  have hInBlock := Machine.extractLsb_extractLsb (packWord 0 tm var w y x (blk.zeroExtend 128)) 0 (show 64 + 64 ≤ 128 by decide)
  rw [← hInBlock, show (packWord 0 tm var w y x (blk.zeroExtend 128)).extractLsb' 0 128 = _ from cmdBlock_packWord ..]
  ext k hk
  simp [show 64 + k < 128 by omega]

/-- The encoder writes every ignored bit as 0 (R85). -/
theorem encode_ignored_bits (i : Instr) :
    cmdRsv (encode i) = 0 ∧ (cmdVar (encode i) = 0 → (encode i).extractLsb' 64 64 = 0) ∧
      (cmdVar (encode i) ≠ 0 → cmdTm (encode i) = 0) := by
  cases i with
  | decRgb x y w blk =>
    exact ⟨Laws.ReservedZero.decRgb x y w blk, fun _ => extractLsb_packWord_upperBlock .., fun h => absurd (cmdVar_packWord ..) h⟩
  | decA1 x y w blk =>
    exact ⟨Laws.ReservedZero.decA1 x y w blk, fun _ => extractLsb_packWord_upperBlock .., fun h => absurd (cmdVar_packWord ..) h⟩
  | decA4 x y w blk =>
    exact ⟨Laws.ReservedZero.decA4 x y w blk, fun h => absurd ((cmdVar_packWord ..).symm.trans h) (by decide),
      fun _ => cmdTm_packWord ..⟩
  | decA8 x y w blk =>
    exact ⟨Laws.ReservedZero.decA8 x y w blk, fun h => absurd ((cmdVar_packWord ..).symm.trans h) (by decide),
      fun _ => cmdTm_packWord ..⟩

/-- Settles O4: a word is performed as what it decodes to, and decoding reads none of these bits. -/
theorem ignoredBitsDoNotMatter : Obligations.IgnoredBitsDoNotMatter := by
  unfold Obligations.IgnoredBitsDoNotMatter
  exact ⟨fun _ _ h => performCommand_congr (decodeWord_congr_below_rsv h),
    fun _ _ hVar hLow h => performCommand_congr (decodeWord_congr_of_var_zero hVar hLow h),
    fun _ _ hVar h => performCommand_congr (decodeWord_congr_of_var_one_or_two hVar h), encode_ignored_bits⟩

/-! ### The assembler (R85, R86) -/

/-- Byte `k` of a block assembled from a byte list is byte `k` of the list. -/
theorem getElem?_eq_extractLsb_natOfBytesLE {n k : Nat} {bs : List Byte} (hk : k < bs.length) (hn : 8 * k + 8 ≤ n) :
    bs[k]? = some ((BitVec.ofNat n (natOfBytesLE bs)).extractLsb' (8 * k) 8) := by
  have hSlice : (BitVec.ofNat n (natOfBytesLE bs)).extractLsb' (8 * k) 8 = BitVec.ofNat 8 (natOfBytesLE bs / 2 ^ (8 * k)) := by
    ext i hi
    rw [BitVec.getElem_extractLsb', BitVec.getLsbD_ofNat, ← BitVec.getLsbD_eq_getElem, BitVec.getLsbD_ofNat, Nat.testBit_div_two_pow,
      Nat.add_comm i]
    simp [hi, show 8 * k + i < n by omega]
  rw [List.getElem?_eq_getElem hk, hSlice, Option.some_inj, ← BitVec.toNat_inj, BitVec.toNat_ofNat, pow_mul]
  exact (natOfBytesLE_div_mod bs hk).symm

/-- Settles O6: a well-formed line's numbers and bytes fit the fields they are stored in. -/
theorem assembledFieldsAreTheLinesOperands : Obligations.AssembledFieldsAreTheLinesOperands := by
  unfold Obligations.AssembledFieldsAreTheLinesOperands
  have hCoord {n : Nat} (hn : n ≤ 65535) : (BitVec.ofNat 16 n).toNat = n := by rw [BitVec.toNat_ofNat]; omega
  refine ⟨fun l hl => by simp [assembleWord, assemble, hl], fun x y w bs hx hy hw hbs => ?_, fun x y w bs hx hy hw hbs => ?_⟩
  · refine ⟨.ofNat 16 x, .ofNat 16 y, .ofNat 16 w, .ofNat 64 (natOfBytesLE bs), ?_, ?_, hCoord hx, hCoord hy, hCoord hw,
      fun k hk => getElem?_eq_extractLsb_natOfBytesLE (by omega) (by omega)⟩
    · simp [assembleWord, assemble, AsmLine.wellFormed, coordsFit, hx, hy, hw, hbs]
    · simp [assembleWord, assemble, AsmLine.wellFormed, coordsFit, hx, hy, hw, hbs]
  · refine ⟨.ofNat 16 x, .ofNat 16 y, .ofNat 16 w, .ofNat 128 (natOfBytesLE bs), ?_, ?_, hCoord hx, hCoord hy, hCoord hw,
      fun k hk => getElem?_eq_extractLsb_natOfBytesLE (by omega) (by omega)⟩
    · simp [assembleWord, assemble, AsmLine.wellFormed, coordsFit, hx, hy, hw, hbs]
    · simp [assembleWord, assemble, AsmLine.wellFormed, coordsFit, hx, hy, hw, hbs]

/-- Settles O7: the pseudo-command is well formed where the command it stands for is, and has that command's operands. -/
theorem pseudoCommandAssembles : Obligations.PseudoCommandAssembles := by
  unfold Obligations.PseudoCommandAssembles
  exact fun _ _ _ _ => ⟨rfl, rfl⟩

end Sys2Proof
end

section
/-! PROOFS, the footprint: its addresses lie inside `IMG`, are exact and pairwise distinct, and the order of the writes cannot be observed
(R45, R47, R49, R52, R171). -/

namespace Sys2Proof.Machine

/-- No pixel of a block lies after the pixel of row 3 and column 3 (R171). -/
theorem pixelAddr_le_last (x y w : Coord) (b : Nat) (p : Lane) :
    pixelAddr x y w b p ≤ ((y.toNat + 3) * w.toNat + (x.toNat + 3)) * b := by
  have hRow : row p ≤ 3 := by unfold row; omega
  have hCol : col p ≤ 3 := by unfold col; omega
  unfold pixelAddr
  gcongr

/-- The check bounds every byte of the footprint by the size of `IMG` (R49, R171). -/
theorem lt_of_mem_footprintAddrs {l : Layout} {x y w : Coord} {n a : Nat} (hFit : footprintOk n x y w (bpp l) = true)
    (ha : a ∈ footprintAddrs l x y w) : a < n := by
  obtain ⟨p, k, hk, rfl⟩ := mem_footprintAddrs.1 ha
  have hLast := pixelAddr_le_last x y w (bpp l) p
  have hBytes := (footprintOk_iff.1 hFit).2
  omega

/-- Settles O21: the check bounds the last pixel, and no other lies after it. -/
theorem storedBytesLieInsideImg : Obligations.StoredBytesLieInsideImg := by
  unfold Obligations.StoredBytesLieInsideImg
  exact fun i n hFit a ha => lt_of_mem_footprintAddrs hFit ha

/-- Settles O22: the address grows with each of `X`, `Y`, `W`, `BPP` and with the pixel's row and column, so its bound is its value where
all are greatest. -/
theorem pixelAddressIsExact : Obligations.PixelAddressIsExact := by
  unfold Obligations.PixelAddressIsExact
  intro x y w l p
  have hx : x.toNat ≤ 65535 := Nat.le_of_lt_succ x.isLt
  have hy : y.toNat ≤ 65535 := Nat.le_of_lt_succ y.isLt
  have hw : w.toNat ≤ 65535 := Nat.le_of_lt_succ w.isLt
  have hb : bpp l ≤ 4 := by cases l <;> decide
  refine ⟨rfl, ?_, by decide⟩
  calc pixelAddr x y w (bpp l) p ≤ ((y.toNat + 3) * w.toNat + (x.toNat + 3)) * bpp l := pixelAddr_le_last ..
    _ ≤ ((65535 + 3) * 65535 + (65535 + 3)) * 4 := by gcongr
    _ = 17180393472 := by decide

/-! ### The bytes of different pixels (R52) -/

/-- Inside `W` columns no byte of a pixel lies in another pixel. -/
theorem pixelBytes_apart {x y w : Coord} {b k : Nat} {p : Lane} (hX : x.toNat + 4 ≤ w.toNat) (hk : k < b) (q : Lane) (hqp : q ≠ p) :
    pixelAddr x y w b p + k < pixelAddr x y w b q ∨ pixelAddr x y w b q + b ≤ pixelAddr x y w b p + k := by
  rcases lt_or_gt_of_ne hqp with hlt | hgt
  · exact .inr ((pixelAddr_add_le_of_lt b hX hlt).trans (Nat.le_add_right _ _))
  · exact .inl ((Nat.add_lt_add_left hk _).trans_le (pixelAddr_add_le_of_lt b hX hgt))

/-- Inside `W` columns a byte address of the footprint belongs to one pixel and one byte number. -/
theorem pixelBytes_injective {x y w : Coord} {b j k : Nat} {p q : Lane} (hX : x.toNat + 4 ≤ w.toNat) (hj : j < b) (hk : k < b)
    (h : pixelAddr x y w b p + j = pixelAddr x y w b q + k) : p = q ∧ j = k := by
  have hpq : p = q := by
    by_contra hne
    have hApart := pixelBytes_apart (y := y) hX hk p hne
    omega
  subst hpq
  exact ⟨rfl, Nat.add_left_cancel h⟩

/-- Settles O23: a byte of the footprint belongs to one pixel, so it holds what that pixel's write puts there, whichever lanes are written
before and after; a byte outside is not written at all. -/
theorem writeOrderCannotBeObserved : Obligations.WriteOrderCannotBeObserved := by
  unfold Obligations.WriteOrderCannotBeObserved
  intro x y w l hX
  refine ⟨fun p q j k hj hk h => pixelBytes_injective hX hj hk h, fun px m ps hPerm a => ?_⟩
  by_cases ha : a ∈ footprintAddrs l x y w
  · obtain ⟨p, k, hk, rfl⟩ := mem_footprintAddrs.1 ha
    rw [readByte_writeBlock_pixel px m p hX hk]
    exact foldl_writePixel_inside l x y w px ps m hk (hPerm.mem_iff.2 (mem_lanes p)) (hPerm.nodup_iff.2 lanes_nodup)
      (pixelBytes_apart hX hk)
  · rw [readByte_writeBlock_outside l x y w px m ha]
    refine foldl_writePixel_outside l x y w px ps m fun p _ => ?_
    by_contra hIn
    exact ha (mem_footprintAddrs.2 ⟨p, a - pixelAddr x y w (bpp l) p, by omega, by omega⟩)

/-! ### The footprint as a list (R47) -/

theorem footprintAddrs_nodup {l : Layout} {x y w : Coord} (hX : x.toNat + 4 ≤ w.toNat) : (footprintAddrs l x y w).Nodup := by
  refine List.nodup_flatMap.2 ⟨fun p _ => List.nodup_range.map fun _ _ => Nat.add_left_cancel,
    lanes_nodup.imp fun {p q} hpq a hp hq => ?_⟩
  obtain ⟨j, hj, rfl⟩ := List.mem_map.1 hp
  obtain ⟨k, hk, h⟩ := List.mem_map.1 hq
  exact hpq (pixelBytes_injective hX (List.mem_range.1 hj) (List.mem_range.1 hk) h.symm).1

theorem length_footprintAddrs (l : Layout) (x y w : Coord) : (footprintAddrs l x y w).length = 16 * bpp l := by
  simp only [footprintAddrs, List.length_flatMap, List.length_map, List.length_range, List.map_const', List.sum_replicate]
  rfl

/-- Settles O24: the footprint has `16 * BPP` addresses, distinct under the check, and each holds its pixel's byte afterwards. -/
theorem commandWritesItsWholeFootprint : Obligations.CommandWritesItsWholeFootprint := by
  unfold Obligations.CommandWritesItsWholeFootprint
  intro i s t hFit ht
  have hX := (footprintOk_iff.1 hFit).1
  refine ⟨footprintAddrs_nodup hX, (length_footprintAddrs ..).trans (by cases i <;> rfl), fun a ha => ?_⟩
  rw [exec_fits hFit] at ht
  cases ht
  obtain ⟨p, k, hk, rfl⟩ := mem_footprintAddrs.1 ha
  rw [State.completeBlock_img, readByte_writeBlock_pixel _ _ p hX hk]
  exact Option.some_ne_none _

end Sys2Proof.Machine
end

section
/-! PROOFS, the step and the run: what every action of the host's list keeps, and what a command word is answered with (R21, R82, R84,
R172 to R175, R200 to R203). -/

namespace Sys2Proof.Machine

/-! ### What every action does to the host's side of the run -/

section Effect
variable {s t : State} {a : HostAction}

theorem ActionEffect.pc (h : ActionEffect s a t) : t.pc = s.pc + 1 := by cases h <;> rfl

theorem ActionEffect.program (h : ActionEffect s a t) : t.program = s.program := by cases h <;> rfl

theorem ActionEffect.imgBytes (h : ActionEffect s a t) : t.imgBytes = s.imgBytes := by cases h <;> rfl

/-- A command adds one response, any other action none (R84). -/
theorem ActionEffect.length_responses (h : ActionEffect s a t) :
    t.responses.length = s.responses.length + if isCommand a = true then 1 else 0 := by
  cases h <;> simp [isCommand]

/-- A read adds one reply, any other action none. -/
theorem ActionEffect.length_replies (h : ActionEffect s a t) :
    t.replies.length = s.replies.length + if givesReply a = true then 1 else 0 := by
  cases h <;> simp [givesReply]

/-- No action takes a response back (R203). -/
theorem ActionEffect.responses_subset (h : ActionEffect s a t) {st : Status} (hst : st ∈ s.responses) : st ∈ t.responses := by
  cases h <;> simp [hst]

theorem ActionEffect.img_wf (h : ActionEffect s a t) (hs : Memory.wf s.img = true) : Memory.wf t.img = true := by
  cases h with
  | complete w i hd hf => exact writeBlock_wf _ _ _ _ _ hs
  | fill a n v h => exact writeBytes_wf _ _ hs
  | write a bs h => exact writeBytes_wf _ _ hs
  | outOfBounds | illegal | wrflags | rdflags | read | reset => exact hs

/-- What an action stores lies inside `IMG` (R49). -/
theorem ActionEffect.img_below (h : ActionEffect s a t) (hs : ∀ c ∈ s.img, c.1 < s.imgBytes) : ∀ c ∈ t.img, c.1 < s.imgBytes := by
  cases h with
  | complete w i hd hf =>
    intro c hc
    exact (mem_writeBlock hc).elim (lt_of_mem_footprintAddrs hf) (hs c)
  | fill a n v h =>
    intro c hc
    refine (mem_writeBytes hc).elim (fun hIn => ?_) (hs c)
    rw [List.length_replicate] at hIn
    omega
  | write a bs h =>
    intro c hc
    exact (mem_writeBytes hc).elim (fun hIn => by omega) (hs c)
  | outOfBounds | illegal | wrflags | rdflags | read | reset => exact hs

end Effect

/-- A count over the actions performed grows by the action at `pc`. -/
theorem countP_take_succ_of_nextAction {s : State} {a : HostAction} (P : HostAction → Bool) (ha : nextAction s = some a) :
    (s.program.take (s.pc + 1)).countP P = (s.program.take s.pc).countP P + if P a = true then 1 else 0 := by
  have hGet : s.program[s.pc]? = some a := ha
  rw [List.take_add_one, hGet, List.countP_append, Option.toList_some, List.countP_singleton]

/-- Settles O14: an ended run stays as it is; every action stores canonically and inside `IMG`, moves `pc` past itself, and adds a response
or a reply exactly where the count over the list does. -/
theorem stepKeepsInvariant : Obligations.StepKeepsInvariant := by
  unfold Obligations.StepKeepsInvariant
  intro s t hs ht
  rcases step_cases ht with ⟨-, rfl⟩ | ⟨a, ha, hEffect⟩
  · exact hs
  · obtain ⟨hWf, hBelow, -, hResponses, hReplies⟩ := hs
    have hInList : s.pc < s.program.length := (List.getElem?_eq_some_iff.1 ha).1
    unfold State.Inv
    rw [hEffect.pc, hEffect.program, hEffect.imgBytes, countP_take_succ_of_nextAction _ ha, countP_take_succ_of_nextAction _ ha,
      hEffect.length_responses, hEffect.length_replies, hResponses, hReplies]
    exact ⟨hEffect.img_wf hWf, hEffect.img_below hBelow, hInList, rfl, rfl⟩

/-- Settles O15: at reset nothing is stored, performed or answered. -/
theorem resetMeetsInvariant : Obligations.ResetMeetsInvariant := by
  unfold Obligations.ResetMeetsInvariant
  decide

/-- Settles O16: no action touches the run's parameters. -/
theorem runParametersNeverChange : Obligations.RunParametersNeverChange := by
  unfold Obligations.RunParametersNeverChange
  intro s t ht
  rcases step_cases ht with ⟨-, rfl⟩ | ⟨a, -, hEffect⟩
  · exact ⟨rfl, rfl⟩
  · exact ⟨hEffect.imgBytes, hEffect.program⟩

/-! ### Faulted runs -/

/-- A faulted run is not a successful one (R172, R203). -/
theorem State.RunFaulted.not_runSuccessful {s : State} (h : s.RunFaulted) : ¬ s.RunSuccessful := by
  obtain ⟨st, hMem, hNe⟩ := h
  exact fun hSuccess => hNe (hSuccess.2 st hMem)

/-- A response other than `OK` stays in the record. -/
theorem State.RunFaulted.step {s t : State} (h : s.RunFaulted) (ht : Machine.step s = .next t) : t.RunFaulted := by
  rcases step_cases ht with ⟨-, rfl⟩ | ⟨a, -, hEffect⟩
  · exact h
  · obtain ⟨st, hMem, hNe⟩ := h
    exact ⟨st, hEffect.responses_subset hMem, hNe⟩

/-- Settles O17: no step takes a response back. -/
theorem faultedRunStaysFaulted : Obligations.FaultedRunStaysFaulted := by
  unfold Obligations.FaultedRunStaysFaulted
  exact fun s t hs ht => ⟨hs.step ht, (hs.step ht).not_runSuccessful⟩

/-- Settles O18: `raise` is the response of the exception, and neither exception's status is `OK`. -/
theorem raisedExceptionOnlyReports : Obligations.RaisedExceptionOnlyReports := by
  unfold Obligations.RaisedExceptionOnlyReports
  intro s e
  have hFaulted : (s.raise e).RunFaulted := ⟨excStatus e, by simp, by cases e <;> decide⟩
  exact ⟨rfl, by cases e <;> rfl, hFaulted, hFaulted.not_runSuccessful⟩

/-! ### The flags -/

/-- Settles O19: a command ORs into `FLAGS` or leaves it, and of the host's actions only the two excluded ones write it. -/
theorem onlyHostClearsFlags : Obligations.OnlyHostClearsFlags := by
  unfold Obligations.OnlyHostClearsFlags
  intro s t ht hNoWrite hNoReset
  rcases step_cases ht with ⟨-, rfl⟩ | ⟨a, ha, hEffect⟩
  · exact ⟨id, id⟩
  · cases hEffect with
    | complete w i hd hf => exact (flagsAccumulateByOr i s _ (exec_fits hf)).2.2
    | wrflags v => exact absurd ha (hNoWrite v)
    | reset => exact absurd ha hNoReset
    | outOfBounds | illegal | rdflags | read | fill | write => exact ⟨id, id⟩

/-! ### The actions one by one -/

theorem step_eq_performAction {s : State} {a : HostAction} (ha : nextAction s = some a) : step s = performAction a s := by
  simp [step, ha]

/-- Settles O8: the action is performed whole, and a command word that decodes is its command. -/
theorem stepRunsTheDecodedCommand : Obligations.StepRunsTheDecodedCommand := by
  unfold Obligations.StepRunsTheDecodedCommand
  exact fun s w i ha hd => (step_command ha).trans (performCommand_ok hd s)

/-- Settles O10: `VAR = 3` decodes to nothing, so the word raises `IllegalCommand`. -/
theorem reservedVariantRaisesIllegalCommand : Obligations.ReservedVariantRaisesIllegalCommand := by
  unfold Obligations.ReservedVariantRaisesIllegalCommand
  intro s w ha hVar
  have hd := decodeWord_reserved hVar
  exact ⟨hd, (step_command ha).trans (performCommand_error hd s), rfl⟩

/-- Settles O11: with no action left the step is idle. -/
theorem endedRunIsIdle : Obligations.EndedRunIsIdle := by
  unfold Obligations.EndedRunIsIdle
  intro s hs
  simp [step, hs]

/-- Settles O12: the reset state has no flag, no action, no response and no byte. -/
theorem resetLeavesFlagsClearAndIdle : Obligations.ResetLeavesFlagsClearAndIdle := by
  unfold Obligations.ResetLeavesFlagsClearAndIdle
  exact ⟨rfl, rfl, rfl, rfl, rfl, fun _ => rfl⟩

/-- Settles O13: the reset event clears `FLAGS` and takes the next action. -/
theorem hostResetClearsFlagsAlone : Obligations.HostResetClearsFlagsAlone := by
  unfold Obligations.HostResetClearsFlagsAlone
  exact fun s ha => step_eq_performAction ha

/-- Settles O45: both accesses to `FLAGS` are their one record update and the next action. -/
theorem hostReadsAndWritesFlags : Obligations.HostReadsAndWritesFlags := by
  unfold Obligations.HostReadsAndWritesFlags
  exact fun s => ⟨fun v ha => step_eq_performAction ha, fun ha => step_eq_performAction ha⟩

/-! ### The host's accesses to `IMG` -/

theorem hostWrite_inside {s : State} {a : Nat} {bs : List Byte} (h : a + bs.length ≤ s.imgBytes) :
    hostWrite a bs s = .next (s.setImg (writeBytes s.img a bs)).advance := by
  simp [hostWrite, rangeInside, h]

theorem hostWrite_outside {s : State} {a : Nat} {bs : List Byte} (h : s.imgBytes < a + bs.length) :
    hostWrite a bs s = .fault .hostRangeOutsideImg := by
  simp [hostWrite, rangeInside, h]

theorem hostRead_inside {s : State} {a n : Nat} (h : a + n ≤ s.imgBytes) :
    hostRead a n s = .next (s.reply (.bytes (memRead s.img a n))) := by
  simp [hostRead, rangeInside, h]

theorem hostRead_outside {s : State} {a n : Nat} (h : s.imgBytes < a + n) : hostRead a n s = .fault .hostRangeOutsideImg := by
  simp [hostRead, rangeInside, h]

/-- What each byte reads as after a fill: the fill's byte in its range. -/
theorem readByte_writeBytes_replicate (m : Memory) (a n : Nat) (v : Byte) (b : Nat) :
    readByte (writeBytes m a (List.replicate n v)) b = if a ≤ b ∧ b < a + n then some v else readByte m b := by
  rw [readByte_writeBytes, List.length_replicate]
  split_ifs with hIn
  · exact List.getElem?_replicate_of_lt (by omega)
  · rfl

/-- Settles O46: the three accesses go through `writeBytes` and `memRead` where their range is inside `IMG`, and stop where it is not. -/
theorem hostAccessesImg : Obligations.HostAccessesImg := by
  unfold Obligations.HostAccessesImg
  intro s
  refine ⟨fun a n v ha hIn => ?_, fun a bs ha hIn => ?_, fun a n ha hIn => ?_, fun a n v ha hOut => ?_, fun a bs ha hOut => ?_,
    fun a n ha hOut => ?_⟩
  · have hFill : a + (List.replicate n v).length ≤ s.imgBytes := by rwa [List.length_replicate]
    exact ⟨_, (step_eq_performAction ha).trans (hostWrite_inside hFill), rfl, readByte_writeBytes_replicate s.img a n v⟩
  · exact ⟨_, (step_eq_performAction ha).trans (hostWrite_inside hIn), rfl, readByte_writeBytes s.img a bs⟩
  · exact ⟨memRead s.img a n, by simp [memRead], fun k hk => by simp [memRead, hk],
      (step_eq_performAction ha).trans (hostRead_inside hIn)⟩
  · exact (step_eq_performAction ha).trans (hostWrite_outside (by rwa [List.length_replicate]))
  · exact (step_eq_performAction ha).trans (hostWrite_outside hOut)
  · exact (step_eq_performAction ha).trans (hostRead_outside hOut)

end Sys2Proof.Machine
end

section
/-! PROOFS, the datapath: the expansion tables, the alpha tables, the ramp steps and the fields of a block (R74 to R79, R100 to R103, R115
to R118). -/

namespace Sys2Proof.Machine

/-! ### The expansion (R101 to R103, decision D5) -/

/-- `EXPAND5` scales 31 to 255, rounding to the nearest: the table's 32 entries. -/
theorem expand5_toNat (i : BitVec 5) : (expand5 config i).toNat = (i.toNat * 255 + 15) / 31 := by
  revert i; decide

/-- `EXPAND6` scales 63 to 255, rounding to the nearest: the table's 64 entries. -/
theorem expand6_toNat (i : BitVec 6) : (expand6 config i).toNat = (i.toNat * 255 + 31) / 63 := by
  revert i; decide

theorem red5_toNat (c : Packed565) : (red5 c).toNat = c.toNat / 2048 := by
  rw [red5, extract, BitVec.extractLsb'_toNat, Nat.shiftRight_eq_div_pow]
  omega

theorem green6_toNat (c : Packed565) : (green6 c).toNat = c.toNat / 32 % 64 := by
  rw [green6, extract, BitVec.extractLsb'_toNat, Nat.shiftRight_eq_div_pow]

theorem blue5_toNat (c : Packed565) : (blue5 c).toNat = c.toNat % 32 := by
  rw [blue5, extract, BitVec.extractLsb'_toNat, Nat.shiftRight_zero]

/-- Settles O35: each channel is its field through its table, and both tables round to the nearest. -/
theorem expand565IsNearestScaling : Obligations.Expand565IsNearestScaling := by
  unfold Obligations.Expand565IsNearestScaling
  intro c
  simp only [expand565, expand5_toNat, expand6_toNat, red5_toNat, green6_toNat, blue5_toNat, true_and]

/-- Settles O36: scaling up is strictly monotone, so the three channels give back the three fields, and these the packed value. -/
theorem expansionIsInjective : Obligations.ExpansionIsInjective := by
  unfold Obligations.ExpansionIsInjective
  intro c d h
  obtain ⟨hcr, hcg, hcb⟩ := expand565IsNearestScaling c
  obtain ⟨hdr, hdg, hdb⟩ := expand565IsNearestScaling d
  rw [h] at hcr hcg hcb
  have hRed : c.toNat / 2048 = d.toNat / 2048 := by omega
  have hGreen : c.toNat / 32 % 64 = d.toNat / 32 % 64 := by omega
  have hBlue : c.toNat % 32 = d.toNat % 32 := by omega
  apply BitVec.eq_of_toNat_eq
  omega

/-! ### The ramps (R115 to R118) -/

/-- Settles O44: the step is the floor of a weighted mean, which lies between the two values. -/
theorem rampStepsLieBetweenEndpoints : Obligations.RampStepsLieBetweenEndpoints := by
  unfold Obligations.RampStepsLieBetweenEndpoints
  intro wa wb a b hd
  rw [weighted_toNat a b hd le_rfl]
  refine ⟨rfl, (Nat.le_div_iff_mul_le hd).2 ?_, Nat.div_le_of_le_mul ?_⟩
  · calc min a.toNat b.toNat * (wa + wb) = wa * min a.toNat b.toNat + wb * min a.toNat b.toNat := by ring
      _ ≤ wa * a.toNat + wb * b.toNat := by gcongr <;> simp
  · calc wa * a.toNat + wb * b.toNat ≤ wa * max a.toNat b.toNat + wb * max a.toNat b.toNat := by gcongr <;> simp
      _ = (wa + wb) * max a.toNat b.toNat := by ring

theorem alphaTable_eight {a0 a1 : Byte} (h : a0.toNat > a1.toNat) :
    alphaTable a0 a1 = #v[a0, a1, weighted 6 1 7 a0 a1, weighted 5 2 7 a0 a1, weighted 4 3 7 a0 a1, weighted 3 4 7 a0 a1,
      weighted 2 5 7 a0 a1, weighted 1 6 7 a0 a1] := if_pos h

theorem alphaTable_six {a0 a1 : Byte} (h : a0.toNat ≤ a1.toNat) :
    alphaTable a0 a1 = #v[a0, a1, weighted 4 1 5 a0 a1, weighted 3 2 5 a0 a1, weighted 2 3 5 a0 a1, weighted 1 4 5 a0 a1, 0, 255] :=
  if_neg (by omega)

/-- Settles O40: the entries from 2 on are the ramp steps of weights `8 - k` and `k - 1`, each exact. -/
theorem alphaTableEightLevels : Obligations.AlphaTableEightLevels := by
  unfold Obligations.AlphaTableEightLevels
  intro a0 a1 h
  simp only [alphaTable_eight h]
  refine ⟨rfl, rfl, fun k hk hk2 => ?_⟩
  have hStep := weighted_toNat (wa := 8 - k) (wb := k - 1) (d := 7) a0 a1 (by decide) (by omega)
  rw [← hStep]
  interval_cases k <;> rfl

/-- Settles O41: the entries 2 to 5 are the ramp steps of weights `6 - k` and `k - 1`, each exact; 6 and 7 are fixed. -/
theorem alphaTableSixLevels : Obligations.AlphaTableSixLevels := by
  unfold Obligations.AlphaTableSixLevels
  intro a0 a1 h
  simp only [alphaTable_six h]
  refine ⟨rfl, rfl, fun k hk hk2 hk5 => ?_, rfl, rfl⟩
  have hStep := weighted_toNat (wa := 6 - k) (wb := k - 1) (d := 5) a0 a1 (by decide) (by omega)
  rw [← hStep]
  interval_cases k <;> rfl

/-! ### The fields of a block (R74 to R79) -/

/-- A little-endian 32-bit field is the contiguous slice of the block at its first byte (R11). -/
theorem le32_eq_extractLsb {n : Nat} (blk : BitVec n) (i : Nat) : le32 blk i = blk.extractLsb' (8 * i) 32 := by
  rw [le32, le16_eq_extractLsb, le16_eq_extractLsb]
  exact BitVec.extractLsb'_append_extractLsb'_eq_extractLsb' (by omega)

/-- A little-endian 48-bit field is the contiguous slice of the block at its first byte (R11). -/
theorem le48_eq_extractLsb {n : Nat} (blk : BitVec n) (i : Nat) : le48 blk i = blk.extractLsb' (8 * i) 48 := by
  rw [le48, le16_eq_extractLsb, le32_eq_extractLsb]
  exact BitVec.extractLsb'_append_extractLsb'_eq_extractLsb' (by omega)

/-- A little-endian 64-bit field is the contiguous slice of the block at its first byte (R11). -/
theorem le64_eq_extractLsb {n : Nat} (blk : BitVec n) (i : Nat) : le64 blk i = blk.extractLsb' (8 * i) 64 := by
  rw [le64, le32_eq_extractLsb, le32_eq_extractLsb]
  exact BitVec.extractLsb'_append_extractLsb'_eq_extractLsb' (by omega)

theorem le16_toNat {n : Nat} (blk : BitVec n) (i : Nat) :
    (le16 blk i).toNat = (blkByte blk i).toNat + 256 * (blkByte blk (i + 1)).toNat := by
  have hByte : (blkByte blk i).toNat < 2 ^ 8 := (blkByte blk i).isLt
  rw [le16, BitVec.toNat_append, Nat.shiftLeft_eq, Nat.mul_comm, ← Nat.two_pow_add_eq_or_of_lt hByte]
  omega

theorem le32_toNat {n : Nat} (blk : BitVec n) (i : Nat) :
    (le32 blk i).toNat = (le16 blk i).toNat + 65536 * (le16 blk (i + 2)).toNat := by
  have hField : (le16 blk i).toNat < 2 ^ 16 := (le16 blk i).isLt
  rw [le32, BitVec.toNat_append, Nat.shiftLeft_eq, Nat.mul_comm, ← Nat.two_pow_add_eq_or_of_lt hField]
  omega

/-- The colour index of pixel `p` in a colour block (R77, R110). -/
theorem colourIndex_eq (cb : BitVec 64) (p : Lane) : colourIndex config cb p = (le32 cb 4).extractLsb' (2 * p.val) 2 := by
  rw [colourIndex, extract, config_colorOff, colourGrid]

theorem colourIndex_toNat (cb : BitVec 64) (p : Lane) :
    (colourIndex config cb p).toNat =
      ((blkByte cb 4).toNat + 256 * (blkByte cb 5).toNat + 65536 * (blkByte cb 6).toNat + 16777216 * (blkByte cb 7).toNat)
        / 2 ^ (2 * p.val) % 4 := by
  have hGrid : (le32 cb 4).toNat =
      (blkByte cb 4).toNat + 256 * (blkByte cb 5).toNat + 65536 * (blkByte cb 6).toNat + 16777216 * (blkByte cb 7).toNat := by
    simp only [le32_toNat, le16_toNat, Nat.reduceAdd]
    omega
  rw [colourIndex_eq, BitVec.extractLsb'_toNat, Nat.shiftRight_eq_div_pow, hGrid]

/-- The alpha index of pixel `p` as a slice of the whole block: the grid begins at bit 16 (R76, R79). -/
theorem alphaIndex_eq_extractLsb (blk : BitVec 128) (p : Lane) : alphaIndex config blk p = blk.extractLsb' (16 + 3 * p.val) 3 := by
  rw [alphaIndex_eq, le48_eq_extractLsb, extractLsb_extractLsb blk _ (by omega)]

/-- Settles O43: concatenated bytes are a little-endian number, and a slice of a block is a quotient of its number. -/
theorem blockFieldsAreLittleEndian : Obligations.BlockFieldsAreLittleEndian := by
  unfold Obligations.BlockFieldsAreLittleEndian
  refine ⟨fun cb p => ⟨le16_toNat cb 0, le16_toNat cb 2, colourIndex_toNat cb p⟩, fun blk p => ⟨?_, ?_, ?_, ?_⟩⟩
  · rw [alpha0, blkByte, BitVec.extractLsb'_toNat, Nat.mul_zero, Nat.shiftRight_zero]
  · rw [alpha1, blkByte, BitVec.extractLsb'_toNat, Nat.shiftRight_eq_div_pow]
  · rw [alphaIndex_eq_extractLsb, BitVec.extractLsb'_toNat, Nat.shiftRight_eq_div_pow]
  · rw [colourBlock, BitVec.extractLsb'_toNat, Nat.shiftRight_eq_div_pow]
    exact Nat.mod_eq_of_lt (Nat.div_lt_of_lt_mul blk.isLt)

end Sys2Proof.Machine
end

section
/-! PROOFS, the four commands: the check that guards them, what each writes, and their frame (R44, R47, R141, R142, R151, R171 to R174). -/

namespace Sys2Proof.Machine

/-! ### The check (R171) -/

theorem commandFits_eq_false_iff {n : Nat} {i : Instr} :
    commandFits n i = false ↔
      (xOf i).toNat + 4 > (wOf i).toNat ∨
        (((yOf i).toNat + 3) * (wOf i).toNat + ((xOf i).toNat + 3)) * bpp (layoutOf i) + bpp (layoutOf i) > n := by
  rw [← Bool.not_eq_true, commandFits, footprintOk_iff, not_and_or, not_le, not_le]

/-- Settles O20: both tests of the check failing is the check passing, and the command then completes. -/
theorem footprintCheckGuardsEveryCommand : Obligations.FootprintCheckGuardsEveryCommand := by
  unfold Obligations.FootprintCheckGuardsEveryCommand
  intro i s
  refine ⟨fun hOut => exec_outOfBounds (commandFits_eq_false_iff.2 hOut), fun hIn => ?_⟩
  rw [← commandFits_eq_false_iff, Bool.not_eq_false] at hIn
  exact ⟨_, exec_fits hIn, State.completeBlock_responses ..⟩

/-! ### The answer to a command word (R174) -/

/-- What a command is answered with. -/
theorem exec_answer (i : Instr) (s : State) :
    ∃ (t : State) (st : Status), exec i s = .next t ∧ t.pc = s.pc + 1 ∧ t.responses = s.responses ++ [st] ∧
      statusCode st =
        if (xOf i).toNat + 4 > (wOf i).toNat ∨
          (((yOf i).toNat + 3) * (wOf i).toNat + ((xOf i).toNat + 3)) * bpp (layoutOf i) + bpp (layoutOf i) > s.imgBytes
        then 2 else 0 := by
  cases hFit : commandFits s.imgBytes i with
  | false => exact ⟨_, _, exec_outOfBounds hFit, rfl, rfl, (if_pos (commandFits_eq_false_iff.1 hFit)).symm⟩
  | true =>
    refine ⟨_, _, exec_fits hFit, rfl, rfl, (if_neg fun hOut => ?_).symm⟩
    simp [commandFits_eq_false_iff.2 hOut] at hFit

/-- Settles O9: each of the five kinds of word is `IllegalCommand` or a command of the word's own fields. -/
theorem everyCommandWordIsAnsweredInOrder : Obligations.EveryCommandWordIsAnsweredInOrder := by
  unfold Obligations.EveryCommandWordIsAnsweredInOrder
  intro s c ha
  rw [step_command ha]
  rcases cmdVar_cmdTm_cases c with ⟨hVar, hTm⟩ | ⟨hVar, hTm⟩ | hVar | hVar | hVar
  · rw [performCommand_ok (decodeWord_decRgb hVar hTm), ← cmdVar, ← cmdTm, hVar, hTm]
    exact exec_answer _ s
  · rw [performCommand_ok (decodeWord_decA1 hVar hTm), ← cmdVar, ← cmdTm, hVar, hTm]
    exact exec_answer _ s
  · rw [performCommand_ok (decodeWord_decA4 hVar), ← cmdVar, hVar]
    exact exec_answer _ s
  · rw [performCommand_ok (decodeWord_decA8 hVar), ← cmdVar, hVar]
    exact exec_answer _ s
  · rw [performCommand_error (decodeWord_reserved hVar), ← cmdVar, hVar]
    exact ⟨_, _, rfl, rfl, rfl, rfl⟩

/-! ### The lanes of each command as palette entries (R141, R142, R151) -/

theorem lanesRgb_eq (blk : BitVec 64) (p : Lane) :
    lanesRgb config blk p =
      ⟨((palette4 config (le16 blk 0) (le16 blk 2) false).pick ((le32 blk 4).extractLsb' (2 * p.val) 2)).getD black, 255⟩ := by
  rw [lanesRgb, c1core_rgb, colourIndex_eq, ref0, ref1]

theorem lanesA1_eq (blk : BitVec 64) (p : Lane) :
    lanesA1 config blk p =
      ⟨((palette4 config (le16 blk 0) (le16 blk 2) false).pick ((le32 blk 4).extractLsb' (2 * p.val) 2)).getD config.slot3,
        if (palette4 config (le16 blk 0) (le16 blk 2) false).special = true ∧ (le32 blk 4).extractLsb' (2 * p.val) 2 = 3
        then 0 else 255⟩ := by
  simp only [lanesA1, c1core_rgba, colourIndex_eq, ref0, ref1, pick_eq_none_iff, and_true, opaqueAlpha]

theorem nibble_eq_le64 (blk : BitVec 128) (p : Lane) : nibble blk p = (le64 blk 0).extractLsb' (4 * p.val) 4 := by
  rw [nibble_eq_extractLsb, le64_eq_extractLsb, extractLsb_extractLsb blk _ (by omega), Nat.mul_zero, Nat.zero_add]

theorem lanesA4_eq (blk : BitVec 128) (p : Lane) :
    lanesA4 config blk p =
      ⟨((palette4 config (le16 blk 8) (le16 blk 10) false).pick ((le32 blk 12).extractLsb' (2 * p.val) 2)).getD config.slot3,
        explicitAlpha blk p⟩ := by
  simp only [lanesA4, c1core_rgba, colourIndex_colourBlock, ref0_colourBlock, ref1_colourBlock, Bool.false_eq_true, and_false, if_false]

/-! ### The flags each command may change (R23, R125) -/

/-- Opaque pixels set no flag. -/
theorem accumulateFlags_opaque {f : BitVec 2} {ea : Lane → Byte} (h : ∀ p, ea p = 255) : accumulateFlags f ea = f := by
  have hFT : ftBlk ea = false := by simp [← Bool.not_eq_true, ftBlk_eq_true, h]
  have hPT : ptBlk ea = false := by simp [← Bool.not_eq_true, ptBlk_eq_true, h]
  exact flags_ext (by simp [hFT]) (by simp [hPT])

/-- Pixels that are opaque or fully transparent do not set `PT`. -/
theorem flagPT_accumulateFlags_binary {f : BitVec 2} {ea : Lane → Byte} (h : ∀ p, ea p = 0 ∨ ea p = 255) :
    flagPT (accumulateFlags f ea) = flagPT f := by
  have hPT : ptBlk ea = false := by
    rw [← Bool.not_eq_true, ptBlk_eq_true]
    rintro ⟨p, hPos, hLt⟩
    rcases h p with hp | hp <;> simp [hp] at hPos hLt
  rw [flagPT_accumulateFlags, hPT, Bool.or_false]

theorem lanesRgb_alpha (blk : BitVec 64) (p : Lane) : (lanesRgb config blk p).alpha = 255 := by rw [lanesRgb_eq]

theorem lanesA1_alpha_binary (blk : BitVec 64) (p : Lane) :
    (lanesA1 config blk p).alpha = 0 ∨ (lanesA1 config blk p).alpha = 255 := by
  rw [lanesA1_eq]
  exact ite_eq_or_eq _ _ _

/-! ### The commands complete -/

/-- The three bytes of a pixel in the RGB layout, in memory order (R42, R120). -/
theorem readByte_writeBlock_rgb {x y w : Coord} (px : Lane → Pixel) (m : Memory) (p : Lane) (hX : x.toNat + 4 ≤ w.toNat) :
    readByte (writeBlock .rgb x y w px m) (pixelAddr x y w 3 p) = some (px p).colour.r ∧
    readByte (writeBlock .rgb x y w px m) (pixelAddr x y w 3 p + 1) = some (px p).colour.g ∧
    readByte (writeBlock .rgb x y w px m) (pixelAddr x y w 3 p + 2) = some (px p).colour.b := by
  have hByte := fun k => readByte_writeBlock_pixel (l := .rgb) (y := y) px m p (k := k) hX
  exact ⟨by simpa using hByte 0, by simpa using hByte 1, by simpa using hByte 2⟩

/-- Settles O25: under the check the command completes over lanes that read back byte by byte, all of them opaque; else the check fails;
`VAR = 0` with `TM = 0` decodes to it. -/
theorem decRgbCompletes : Obligations.DecRgbCompletes := by
  unfold Obligations.DecRgbCompletes
  intro x y w blk s
  refine ⟨fun hX hBytes => ?_, fun hOut => ?_, fun c hVar hTm hx hy hw hblk => ?_⟩
  · have hExec : exec (.decRgb x y w blk) s = .next (s.completeBlock .rgb x y w (lanesRgb config blk)) :=
      exec_fits (footprintOk_iff.2 ⟨hX, hBytes⟩)
    refine ⟨_, hExec, State.completeBlock_pc .., State.completeBlock_responses .., accumulateFlags_opaque (lanesRgb_alpha blk),
      fun p => ?_⟩
    have hPixel := readByte_writeBlock_rgb (y := y) (lanesRgb config blk) s.img p hX
    rw [lanesRgb_eq] at hPixel
    rw [State.completeBlock_img]
    exact hPixel
  · exact exec_outOfBounds (commandFits_eq_false_iff.2 hOut)
  · rw [← cmdBlockLow_eq] at hblk
    subst hx hy hw hblk
    exact performCommand_ok (decodeWord_decRgb hVar hTm) s

/-- Settles O26: under the check the command completes over lanes that read back byte by byte, transparent at the special slot and opaque
elsewhere; else the check fails; `VAR = 0` with `TM = 1` decodes to it. -/
theorem decA1Completes : Obligations.DecA1Completes := by
  unfold Obligations.DecA1Completes
  intro x y w blk s P cidx
  refine ⟨fun hX hBytes => ?_, fun hOut => ?_, fun c hVar hTm hx hy hw hblk => ?_⟩
  · have hFit : commandFits s.imgBytes (.decA1 x y w blk) = true := footprintOk_iff.2 ⟨hX, hBytes⟩
    have hExec : exec (.decA1 x y w blk) s = .next (s.completeBlock .rgba x y w (lanesA1 config blk)) := exec_fits hFit
    have hTransparent (p : Lane) : (lanesA1 config blk p).alpha.toNat = 0 ↔ P.special = true ∧ cidx p = 3 := by
      rw [lanesA1_eq]
      split_ifs with hSpecial
      · simpa using hSpecial
      · simpa using hSpecial
    have hFT := ((flagsAccumulateByOr _ _ _ hExec).1 hFit).1
    simp only [lanesOf, hTransparent] at hFT
    refine ⟨_, hExec, State.completeBlock_pc .., State.completeBlock_responses .., hFT,
      flagPT_accumulateFlags_binary (lanesA1_alpha_binary blk), fun p => ?_⟩
    have hPixel := readByte_writeBlock_rgba (y := y) (lanesA1 config blk) s.img p hX
    rw [lanesA1_eq] at hPixel
    rw [State.completeBlock_img]
    exact hPixel
  · exact exec_outOfBounds (commandFits_eq_false_iff.2 hOut)
  · rw [← cmdBlockLow_eq] at hblk
    subst hx hy hw hblk
    exact performCommand_ok (decodeWord_decA1 hVar hTm) s

/-- Settles O27: under the check the command completes over lanes that read back byte by byte, with the alpha of each pixel's own nibble;
else the check fails; `VAR = 1` decodes to it. -/
theorem decA4Completes : Obligations.DecA4Completes := by
  unfold Obligations.DecA4Completes
  intro x y w blk s P cidx nib
  refine ⟨fun hX hBytes => ?_, fun hOut => ?_, fun c hVar hx hy hw hblk => ?_⟩
  · have hFit : commandFits s.imgBytes (.decA4 x y w blk) = true := footprintOk_iff.2 ⟨hX, hBytes⟩
    have hExec : exec (.decA4 x y w blk) s = .next (s.completeBlock .rgba x y w (lanesA4 config blk)) := exec_fits hFit
    have hNib (p : Lane) : (nibble blk p).toNat = nib p := by rw [nibble_eq_le64]
    have hAlpha (p : Lane) : (lanesA4 config blk p).alpha.toNat = nib p * 17 := by
      rw [lanesA4_eq, explicitAlpha_toNat, hNib]
    obtain ⟨hFT, hPT⟩ := (flagsAccumulateByOr _ _ _ hExec).1 hFit
    have hZero (n : Nat) : n * 17 = 0 ↔ n = 0 := by omega
    have hPartial (n : Nat) : 0 < n * 17 ∧ n * 17 < 255 ↔ 1 ≤ n ∧ n ≤ 14 := by omega
    simp only [lanesOf, hAlpha, hZero] at hFT
    simp only [lanesOf, hAlpha, hPartial] at hPT
    refine ⟨_, hExec, State.completeBlock_pc .., State.completeBlock_responses .., hFT, hPT, fun p => ?_⟩
    have hPixel := readByte_writeBlock_rgba (y := y) (lanesA4 config blk) s.img p hX
    rw [lanesA4_eq, explicitAlpha, hNib] at hPixel
    rw [State.completeBlock_img]
    exact hPixel
  · exact exec_outOfBounds (commandFits_eq_false_iff.2 hOut)
  · subst hx hy hw hblk
    exact performCommand_ok (decodeWord_decA4 hVar) s

/-! ### The frame -/

/-- Settles O29: a command that completes writes its footprint alone, one that does not fit writes nothing, and each mnemonic's alphas bound
the flags it can set. -/
theorem commandsChangeNothingElse : Obligations.CommandsChangeNothingElse := by
  unfold Obligations.CommandsChangeNothingElse
  intro i s t ht
  rcases exec_cases ht with ⟨hFit, rfl⟩ | ⟨hFit, rfl⟩
  · refine ⟨fun a ha => readByte_writeBlock_outside _ _ _ _ _ _ ha, fun hNot => absurd (hFit.symm.trans hNot) (by decide), rfl, rfl, rfl,
      ?_⟩
    cases i with
    | decRgb x y w blk => exact accumulateFlags_opaque (lanesRgb_alpha blk)
    | decA1 x y w blk => exact flagPT_accumulateFlags_binary (lanesA1_alpha_binary blk)
    | decA4 x y w blk => trivial
    | decA8 x y w blk => trivial
  · exact ⟨fun _ _ => rfl, fun _ => ⟨rfl, rfl⟩, rfl, rfl, rfl, by cases i <;> trivial⟩

/-- Settles O34: the later command finds the same `IMG_BYTES`, so it completes, and each pixel's bytes read back from what it wrote. -/
theorem laterCommandWins : Obligations.LaterCommandWins := by
  unfold Obligations.LaterCommandWins
  intro i j s t u ht hu hFit p k hk
  obtain ⟨-, -, hBytes, -⟩ := commandsChangeNothingElse i s t ht
  rw [exec_fits (hBytes ▸ hFit)] at hu
  cases hu
  exact readByte_writeBlock_pixel _ _ p (footprintOk_iff.1 hFit).1 hk

end Sys2Proof.Machine
end

section
/-! PROOFS, commands one after another: what a command does to `IMG` overwrites a set of bytes, so commands repeat without effect and
commute where their bytes are apart (R48, R53). -/

namespace Sys2Proof.Machine

/-! ### Overwriting a set of bytes -/

/-- An operation on `IMG` that gives each byte of `S` a value which does not depend on what `IMG` held, and leaves every other byte. -/
structure Overwrites (S : List Nat) (op : Memory → Memory) : Prop where
  wf : ∀ {m}, Memory.wf m = true → Memory.wf (op m) = true
  inside : ∀ {a}, a ∈ S → ∀ m m', readByte (op m) a = readByte (op m') a
  outside : ∀ {a}, a ∉ S → ∀ m, readByte (op m) a = readByte m a

/-- Overwriting twice is overwriting once. -/
theorem Overwrites.idempotent {S : List Nat} {op : Memory → Memory} (h : Overwrites S op) {m : Memory} (hm : Memory.wf m = true) :
    op (op m) = op m := by
  refine memory_ext (h.wf (h.wf hm)) (h.wf hm) fun a => ?_
  by_cases ha : a ∈ S
  · exact h.inside ha _ _
  · exact h.outside ha _

/-- Overwriting disjoint sets commutes. -/
theorem Overwrites.comm {S S' : List Nat} {op op' : Memory → Memory} (h : Overwrites S op) (h' : Overwrites S' op')
    (hDisjoint : ∀ a ∈ S, a ∉ S') {m : Memory} (hm : Memory.wf m = true) : op' (op m) = op (op' m) := by
  refine memory_ext (h'.wf (h.wf hm)) (h.wf (h'.wf hm)) fun a => ?_
  by_cases ha : a ∈ S
  · rw [h'.outside (hDisjoint a ha)]
    exact h.inside ha _ _
  · rw [h.outside ha]
    by_cases ha' : a ∈ S'
    · exact h'.inside ha' _ _
    · rw [h'.outside ha', h'.outside ha', h.outside ha]

theorem Overwrites.nothing : Overwrites [] id :=
  ⟨fun h => h, fun h => absurd h List.not_mem_nil, fun _ _ => rfl⟩

theorem writeBlock_overwrites (l : Layout) (x y w : Coord) (px : Lane → Pixel) :
    Overwrites (footprintAddrs l x y w) (writeBlock l x y w px) :=
  ⟨writeBlock_wf l x y w px, fun ha => readByte_writeBlock_independent ha px, fun ha m => readByte_writeBlock_outside l x y w px m ha⟩

/-! ### A command word as operations on `IMG` and on `FLAGS` -/

/-- What a command does to an `IMG` of `n` bytes. -/
def instrImg (n : Nat) (i : Instr) : Memory → Memory :=
  if commandFits n i then writeBlock (layoutOf i) (xOf i) (yOf i) (wOf i) (lanesOf i) else id

/-- What a command does to `FLAGS`. -/
def instrFlags (n : Nat) (i : Instr) (f : BitVec 2) : BitVec 2 :=
  if commandFits n i then accumulateFlags f fun p => (lanesOf i p).alpha else f

/-- What a command is answered with. -/
def instrStatus (n : Nat) (i : Instr) : Status := if commandFits n i then .ok else .footprintOutOfBounds

/-- What a command word does to an `IMG` of `n` bytes. -/
def wordImg (n : Nat) (c : CmdWord) : Memory → Memory :=
  match decodeWord c with
  | .ok i => instrImg n i
  | .error _ => id

/-- What a command word does to `FLAGS`. -/
def wordFlags (n : Nat) (c : CmdWord) (f : BitVec 2) : BitVec 2 :=
  match decodeWord c with
  | .ok i => instrFlags n i f
  | .error _ => f

/-- What a command word is answered with. -/
def wordStatus (n : Nat) (c : CmdWord) : Status :=
  match decodeWord c with
  | .ok i => instrStatus n i
  | .error _ => .illegalCommand

/-- A command is these operations, its response and the next action. -/
theorem exec_eq_operations (i : Instr) (s : State) :
    exec i s = .next ((s.setImg (instrImg s.imgBytes i s.img)).setFlags (instrFlags s.imgBytes i s.flags)
      |>.respond (instrStatus s.imgBytes i)) := by
  cases hFit : commandFits s.imgBytes i
  · rw [exec_outOfBounds hFit]
    simp only [instrImg, instrFlags, instrStatus, hFit, Bool.false_eq_true, if_false]
    rfl
  · rw [exec_fits hFit]
    simp only [instrImg, instrFlags, instrStatus, hFit, if_true]
    rfl

theorem performCommand_eq_operations (c : CmdWord) (s : State) :
    performCommand c s = .next ((s.setImg (wordImg s.imgBytes c s.img)).setFlags (wordFlags s.imgBytes c s.flags)
      |>.respond (wordStatus s.imgBytes c)) := by
  cases hd : decodeWord c with
  | ok i =>
    rw [performCommand_ok hd, exec_eq_operations]
    simp [wordImg, wordFlags, wordStatus, hd]
  | error e =>
    rw [performCommand_error hd]
    simp only [wordImg, wordFlags, wordStatus, hd]
    rfl

/-- The bytes a command stores to in an `IMG` of `n` bytes: none where it does not fit. -/
theorem instrImg_overwrites (n : Nat) (i : Instr) :
    Overwrites (if commandFits n i then storedAddrs i else []) (instrImg n i) := by
  unfold instrImg
  split_ifs
  · exact writeBlock_overwrites ..
  · exact .nothing

theorem touched_command_ok {c : CmdWord} {i : Instr} (hd : decodeWord c = .ok i) (n : Nat) :
    touched n (.command c) = if commandFits n i then storedAddrs i else [] := by
  simp [touched, hd]

theorem touched_command_error {c : CmdWord} {e : DecodeError} (hd : decodeWord c = .error e) (n : Nat) :
    touched n (.command c) = [] := by
  simp [touched, hd]

/-- A command word overwrites the bytes it touches. -/
theorem wordImg_overwrites (n : Nat) (c : CmdWord) : Overwrites (touched n (.command c)) (wordImg n c) := by
  unfold wordImg
  cases hd : decodeWord c with
  | ok i => rw [touched_command_ok hd]; exact instrImg_overwrites n i
  | error e => rw [touched_command_error hd]; exact .nothing

theorem instrFlags_comm (n : Nat) (i j : Instr) (f : BitVec 2) :
    instrFlags n j (instrFlags n i f) = instrFlags n i (instrFlags n j f) := by
  unfold instrFlags accumulateFlags
  split_ifs
  · rw [BitVec.or_assoc, BitVec.or_comm (flagsOf _ _), BitVec.or_assoc]
  all_goals rfl

theorem instrFlags_idempotent (n : Nat) (i : Instr) (f : BitVec 2) : instrFlags n i (instrFlags n i f) = instrFlags n i f := by
  unfold instrFlags accumulateFlags
  split_ifs
  · rw [BitVec.or_assoc, BitVec.or_self]
  · rfl

theorem wordFlags_idempotent (n : Nat) (c : CmdWord) (f : BitVec 2) : wordFlags n c (wordFlags n c f) = wordFlags n c f := by
  unfold wordFlags
  cases decodeWord c with
  | ok i => exact instrFlags_idempotent n i f
  | error e => rfl

/-- Settles O32: a byte write is plain, and a command word overwrites bytes of `IMG` and ORs into `FLAGS`, both idempotent. -/
theorem commandIsIdempotent : Obligations.CommandIsIdempotent := by
  unfold Obligations.CommandIsIdempotent
  refine ⟨readByte_writeByte, fun c s t u hWf ht hu => ?_⟩
  rw [performCommand_eq_operations] at ht
  cases ht
  rw [performCommand_eq_operations] at hu
  cases hu
  exact ⟨(wordImg_overwrites s.imgBytes c).idempotent hWf, wordFlags_idempotent s.imgBytes c s.flags⟩

/-! ### Two commands of one decoder -/

/-- Commands with disjoint footprints leave the same `IMG` and `FLAGS` in either order. -/
theorem exec_comm_of_disjoint {i j : Instr} {s t u t' u' : State} (hWf : Memory.wf s.img = true)
    (hDisjoint : ∀ a ∈ storedAddrs i, a ∉ storedAddrs j) (ht : exec i s = .next t) (hu : exec j t = .next u)
    (ht' : exec j s = .next t') (hu' : exec i t' = .next u') : u.img = u'.img ∧ u.flags = u'.flags := by
  rw [exec_eq_operations] at ht ht'
  cases ht
  cases ht'
  rw [exec_eq_operations] at hu hu'
  cases hu
  cases hu'
  refine ⟨(instrImg_overwrites s.imgBytes i).comm (instrImg_overwrites s.imgBytes j) (fun a hi hj => ?_) hWf,
    instrFlags_comm s.imgBytes i j s.flags⟩
  have hStored {i : Instr} (h : a ∈ if commandFits s.imgBytes i then storedAddrs i else []) : a ∈ storedAddrs i := by
    split_ifs at h
    · exact h
    · cases h
  exact hDisjoint a (hStored hi) (hStored hj)

/-! ### Two commands of different instances -/

/-- What a command word leaves of its decoder's own registers and record. -/
def wordPort (n : Nat) (c : CmdWord) (p : Port) : Port :=
  ⟨wordFlags n c p.flags, p.program, p.pc + 1, p.responses ++ [wordStatus n c], p.replies⟩

/-- A decoder whose next action is a command word changes `IMG` and its own port by it. -/
theorem Cluster.stepInstance_command {cl : Cluster} {k : Nat} {p : Port} {c : CmdWord} (hp : cl.ports[k]? = some p)
    (ha : nextAction (cl.view p) = some (.command c)) :
    cl.stepInstance k = .next ⟨cl.imgBytes, wordImg cl.imgBytes c cl.img, cl.ports.set k (wordPort cl.imgBytes c p)⟩ := by
  simp only [Cluster.stepInstance, hp, step_command ha, performCommand_eq_operations]
  rfl

theorem Cluster.actionOf_eq_some {cl : Cluster} {k : Nat} {a : HostAction} (h : cl.actionOf k = some a) :
    ∃ p, cl.ports[k]? = some p ∧ nextAction (cl.view p) = some a := by
  unfold Cluster.actionOf at h
  cases hp : cl.ports[k]? with
  | none => simp [hp] at h
  | some p => exact ⟨p, rfl, by simpa [hp] using h⟩

/-- Two different instances launched together race or perform their actions one after the other (R55). -/
theorem Cluster.launch_pair {cl : Cluster} {j k : Nat} {a b : HostAction} (hjk : j ≠ k) (haj : cl.actionOf j = some a)
    (hak : cl.actionOf k = some b) :
    cl.launch [j, k] = if conflict cl.imgBytes a b then .fault .dataRace else Cluster.stepAll [j, k] cl := by
  simp [Cluster.launch, hjk, haj, hak, anyConflict]

/-- Two command words conflict exactly where they touch a common byte (R55). -/
theorem conflict_commands_iff {n : Nat} {c c' : CmdWord} :
    conflict n (.command c) (.command c') = true ↔ ∃ a ∈ touched n (.command c), a ∈ touched n (.command c') := by
  simp [conflict, isCommand]

/-- A launch of two commands on disjoint bytes performs one after the other. -/
theorem Cluster.launch_disjoint_commands {cl : Cluster} {j k : Nat} {cj ck : CmdWord} {pj pk : Port} (hjk : j ≠ k)
    (hpj : cl.ports[j]? = some pj) (hpk : cl.ports[k]? = some pk) (haj : nextAction (cl.view pj) = some (.command cj))
    (hak : nextAction (cl.view pk) = some (.command ck))
    (hDisjoint : ∀ a ∈ touched cl.imgBytes (.command cj), a ∉ touched cl.imgBytes (.command ck)) :
    cl.launch [j, k] = .next ⟨cl.imgBytes, wordImg cl.imgBytes ck (wordImg cl.imgBytes cj cl.img),
      (cl.ports.set j (wordPort cl.imgBytes cj pj)).set k (wordPort cl.imgBytes ck pk)⟩ := by
  have hActionJ : cl.actionOf j = some (.command cj) := by simp [Cluster.actionOf, hpj, haj]
  have hActionK : cl.actionOf k = some (.command ck) := by simp [Cluster.actionOf, hpk, hak]
  have hNoConflict : ¬ conflict cl.imgBytes (.command cj) (.command ck) = true := by
    rw [conflict_commands_iff]
    exact fun ⟨a, hj, hk⟩ => hDisjoint a hj hk
  have hPortK : (cl.ports.set j (wordPort cl.imgBytes cj pj))[k]? = some pk := by rw [List.getElem?_set_ne hjk, hpk]
  have hStepK := Cluster.stepInstance_command
    (cl := ⟨cl.imgBytes, wordImg cl.imgBytes cj cl.img, cl.ports.set j (wordPort cl.imgBytes cj pj)⟩) hPortK hak
  rw [Cluster.launch_pair hjk hActionJ hActionK, if_neg hNoConflict]
  simp only [Cluster.stepAll, Cluster.stepInstance_command hpj haj, hStepK]

/-- Settles O33: disjoint bytes overwritten, and the flags ORed, come out alike in either order. -/
theorem disjointCommandsCommute : Obligations.DisjointCommandsCommute := by
  unfold Obligations.DisjointCommandsCommute
  refine ⟨fun i j s t u t' u' => exec_comm_of_disjoint, fun cl j k cj ck hjk hWf haj hak hDisjoint => ?_⟩
  obtain ⟨pj, hpj, haj⟩ := Cluster.actionOf_eq_some haj
  obtain ⟨pk, hpk, hak⟩ := Cluster.actionOf_eq_some hak
  refine ⟨_, Cluster.launch_disjoint_commands hjk hpj hpk haj hak hDisjoint, ?_⟩
  rw [Cluster.launch_disjoint_commands hjk.symm hpk hpj hak haj fun a hk hj => hDisjoint a hj hk, List.set_comm _ _ hjk,
    (wordImg_overwrites cl.imgBytes cj).comm (wordImg_overwrites cl.imgBytes ck) hDisjoint hWf]

end Sys2Proof.Machine
end

section
/-! PROOFS, several instances: what they share, the race, and the end and the fault of their run (R55, R172, R181, R203). -/

namespace Sys2Proof.Machine

/-- Settles O47: a decoder's step puts back `IMG` and its own port alone. -/
theorem instancesShareOnlyImg : Obligations.InstancesShareOnlyImg := by
  unfold Obligations.InstancesShareOnlyImg
  intro k c c' h
  obtain ⟨p, s, -, -, rfl⟩ := Cluster.stepInstance_cases h
  exact ⟨rfl, List.length_set, fun j hjk => List.getElem?_set_ne hjk.symm⟩

/-- Settles O48: commands that fit touch their footprints, and a common byte is a conflict. -/
theorem overlapInFlightIsARace : Obligations.OverlapInFlightIsARace := by
  unfold Obligations.OverlapInFlightIsARace
  intro c j k wj wk ij ik a hjk hActionJ hActionK hdj hdk hFitJ hFitK haj hak
  have hConflict : conflict c.imgBytes (.command wj) (.command wk) = true := by
    rw [conflict_commands_iff, touched_command_ok hdj, touched_command_ok hdk, if_pos hFitJ, if_pos hFitK]
    exact ⟨a, haj, hak⟩
  rw [Cluster.launch_pair hjk hActionJ hActionK, if_pos hConflict]

/-! ### The end of a run (R203) -/

theorem Cluster.actionOf_of_lt {c : Cluster} {k : Nat} (hk : k < c.ports.length) :
    c.actionOf k = nextAction (c.view c.ports[k]) := by
  simp [Cluster.actionOf, List.getElem?_eq_getElem hk]

theorem Cluster.runEnded_iff (c : Cluster) : c.RunEnded ↔ ∀ k < c.ports.length, c.actionOf k = none := by
  refine List.forall_mem_iff_forall_getElem.trans (forall₂_congr fun k hk => ?_)
  rw [Cluster.actionOf_of_lt hk]

/-- Instances whose lists have ended leave the cluster as it is, one after another. -/
theorem Cluster.RunEnded.stepAll {c : Cluster} (h : c.RunEnded) (ks : List Nat) (hks : ∀ k ∈ ks, k < c.ports.length) :
    Cluster.stepAll ks c = .next c := by
  induction ks with
  | nil => rfl
  | cons k ks ih =>
    have hk := hks k List.mem_cons_self
    have hStep : c.stepInstance k = .next c :=
      Cluster.stepInstance_ended (List.getElem?_eq_getElem hk) (h _ (List.getElem_mem hk))
    simp only [Cluster.stepAll, hStep]
    exact ih fun j hj => hks j (List.mem_cons_of_mem k hj)

/-- A launch in an ended run finds no action, so no conflict. -/
theorem Cluster.RunEnded.launch {c : Cluster} (h : c.RunEnded) {ks : List Nat} (hNodup : ks.Nodup)
    (hks : ∀ k ∈ ks, k < c.ports.length) : c.launch ks = .next c := by
  have hNone : ks.filterMap c.actionOf = [] :=
    List.filterMap_eq_nil_iff.2 fun k hk => c.runEnded_iff.1 h k (hks k hk)
  rw [Cluster.launch, if_pos hNodup, hNone, anyConflict, if_neg Bool.false_ne_true]
  exact h.stepAll ks hks

theorem Cluster.RunFaulted.not_runSuccessful {c : Cluster} (h : c.RunFaulted) : ¬ c.RunSuccessful := by
  obtain ⟨p, hp, hFaulted⟩ := h
  exact fun hSuccess => hFaulted.not_runSuccessful (hSuccess p hp)

/-- Settles O49: a decoder with no action left steps to the same cluster, and in an ended run success is the absence of a fault. -/
theorem clusterRunEndsWithEveryList : Obligations.ClusterRunEndsWithEveryList := by
  unfold Obligations.ClusterRunEndsWithEveryList
  intro c
  refine ⟨c.runEnded_iff, fun hEnded ks hNodup hks => hEnded.launch hNodup hks,
    fun hEnded => ⟨fun hSuccess hFaulted => ?_, fun hOk p hp => ?_⟩,
    Cluster.RunFaulted.not_runSuccessful⟩
  · exact hFaulted.not_runSuccessful hSuccess
  · refine ⟨hEnded p hp, fun st hst => ?_⟩
    by_contra hNe
    exact hOk ⟨p, hp, st, hst, hNe⟩

/-! ### Faulted runs -/

/-- The decoder that acts keeps its responses, and the others keep their ports. -/
theorem Cluster.RunFaulted.stepInstance {c c' : Cluster} {k : Nat} (h : c.RunFaulted) (hc : c.stepInstance k = .next c') :
    c'.RunFaulted := by
  obtain ⟨p, s, hp, hs, rfl⟩ := Cluster.stepInstance_cases hc
  obtain ⟨q, hq, hFaulted⟩ := h
  obtain ⟨j, hj⟩ := List.mem_iff_getElem?.1 hq
  by_cases hjk : j = k
  · subst hjk
    obtain rfl : p = q := Option.some_inj.1 (hp.symm.trans hj)
    have hActed : s.RunFaulted := State.RunFaulted.step hFaulted hs
    obtain ⟨hLt, -⟩ := List.getElem?_eq_some_iff.1 hp
    exact ⟨portOf s, List.mem_set hLt _, hActed⟩
  · have hOther : (c.putBack k s).ports[j]? = some q := (List.getElem?_set_ne (Ne.symm hjk)).trans hj
    exact ⟨q, List.mem_of_getElem? hOther, hFaulted⟩

theorem Cluster.RunFaulted.launch {c c' : Cluster} {ks : List Nat} (h : c.RunFaulted) (hc : c.launch ks = .next c') : c'.RunFaulted := by
  obtain ⟨-, -, hAll⟩ := Cluster.launch_cases hc
  exact Cluster.stepAll_keeps (fun k c c' => Cluster.RunFaulted.stepInstance) ks h hAll

/-- Settles O50: no decoder's step takes a response back, and a launch is a sequence of such steps. -/
theorem faultedClusterRunStaysFaulted : Obligations.FaultedClusterRunStaysFaulted := by
  unfold Obligations.FaultedClusterRunStaysFaulted
  intro c c' h
  exact ⟨fun k hc => ⟨h.stepInstance hc, (h.stepInstance hc).not_runSuccessful⟩,
    fun ks hc => ⟨h.launch hc, (h.launch hc).not_runSuccessful⟩⟩

end Sys2Proof.Machine
end
